-- ==== Sys2Proof/Word.lean ====
section
/-! DEFINITION. The word types of the block and nothing else (R10, R52, R70). -/

namespace Sys2Proof

/-- Every operand, result and port register: 64 bits, unsigned (R10). -/
abbrev Word := BitVec 64

/-- A byte, as an adapter's bus moves it (R53). The block itself has no bytes (R52). -/
abbrev Byte := BitVec 8

/-- A port transaction word: WE, IDX and DATA (R70). -/
abbrev XactWord := BitVec 68

end Sys2Proof
end

