-- ==== Sys2Proof/Config.lean ====
section
/-! DEFINITION. What one MODARITH64 fixes (the names of its registers and commands, its constants) and
the values the spec leaves open, which have no body: no proof can see them. -/

namespace Sys2Proof

/-- The eight port registers, in index order (R20). -/
inductive PortReg where
  | id | ctrl | status | cmd | opa | opb | opm | result
deriving DecidableEq, Repr, Inhabited

/-- The six commands, in opcode order (R3, R72). -/
inductive Command where
  | madd | msub | mmul | mpow | mrtest | minv
deriving DecidableEq, Repr, Inhabited

namespace Config

/-- `CORE_ID`, the value of the ID register (R10, R27). -/
def coreId : Word := 0x4D4F444152490001#64

/-- `WITNESSES`, in the order they are tried (R10, R142). -/
def witnesses : List Nat := [2, 3, 5, 7, 11, 13, 17, 19, 23, 29, 31, 37]

/-- Free values: the `n`-th word the block may take where the spec gives none, namely the working
registers after a reset (R43, P5) and the data of a read presented during a reset (R190, P6).
DESIGN CHOICE of form (log 6, log 7), safe: nothing constrains it. -/
opaque freeWord : Nat → Word

/-- The OPEN platform parameter behind `base` (R53, P2; log 16). -/
opaque baseBlock : Nat

/-- `BASE`, the byte address the adapter gives the block: any multiple of 64 (R53, P2). -/
def base : Nat := 64 * baseBlock

end Config

end Sys2Proof
end

