-- ==== Sys2Proof/Machine/Datapath.lean ====
section
/-! DEFINITION. The datapath functions, on unbounded numbers (R11), as the rules' pseudocode has them. Each
`while` of a rule is a recursion on a bound that 64-bit operands never exhaust (log 12). `% `, `/` and `-` of
the pseudocode are those of Nat; every modulus the block passes is at least 1 (R15, R94, R142). -/

namespace Sys2Proof.Machine

/-- Narrow an exact result to a register. Every result fits (R45). -/
def toWord (n : Nat) : Word := BitVec.ofNat 64 n

/-- `mod_add(a, b, m)` (R120). -/
def modAdd (a b m : Nat) : Nat :=
  if a % m ≥ m - b % m then a % m - (m - b % m) else a % m + b % m

/-- `mod_sub(a, b, m)` (R122). -/
def modSub (a b m : Nat) : Nat :=
  if a % m < b % m then (m - b % m) + a % m else a % m - b % m

/-- The registers of the double-and-add and square-and-multiply loops: W.ACC, W.BASE, W.E (R40). -/
structure Scan where
  acc : Nat
  base : Nat
  e : Nat
deriving DecidableEq, Repr

/-- One iteration of `mod_mul`'s loop (R130). -/
def mulIter (m : Nat) (s : Scan) : Scan :=
  { acc := if s.e % 2 = 1 then modAdd s.acc s.base m else s.acc
    base := modAdd s.base s.base m
    e := s.e / 2 }

/-- `mod_mul`'s loop: while E ≠ 0 (R130). -/
def mulLoop (m : Nat) : Nat → Scan → Nat
  | 0, s => s.acc
  | fuel + 1, s => if s.e = 0 then s.acc else mulLoop m fuel (mulIter m s)

/-- `mod_mul(a, b, m)`: double-and-add, at most 64 iterations (R130). -/
def modMul (a b m : Nat) : Nat := mulLoop m 64 { acc := 0, base := a % m, e := b }

/-- One iteration of `mod_pow`'s loop (R132). -/
def powIter (m : Nat) (s : Scan) : Scan :=
  { acc := if s.e % 2 = 1 then modMul s.acc s.base m else s.acc
    base := modMul s.base s.base m
    e := s.e / 2 }

/-- `mod_pow`'s loop: while E ≠ 0 (R132). -/
def powLoop (m : Nat) : Nat → Scan → Nat
  | 0, s => s.acc
  | fuel + 1, s => if s.e = 0 then s.acc else powLoop m fuel (powIter m s)

/-- `mod_pow(a, b, m)`: square-and-multiply, at most 64 iterations (R132). -/
def modPow (a b m : Nat) : Nat := powLoop m 64 { acc := 1 % m, base := a % m, e := b }

/-! ### Miller-Rabin (R140-R142) -/

/-- Step 1, the guard: composite at once (R140). -/
def mrGuard (n : Nat) : Bool := n == 1 || (n % 2 == 0 && n != 2)

/-- Step 2's loop: halve Q while it is even, counting in K (R141). -/
def halveLoop : Nat → Nat → Nat → Nat × Nat
  | 0, q, k => (q, k)
  | fuel + 1, q, k => if q % 2 = 0 then halveLoop fuel (q / 2) (k + 1) else (q, k)

/-- Step 3's inner loop, from X = x_r: does the witness pass (R142)? The values compared with n - 1 are
x_0 .. x_(k-1), the reading of C1 of 90. -/
def squareLoop (n k : Nat) : Nat → Nat → Nat → Bool
  | 0, _, _ => false
  | fuel + 1, x, r =>
    if x = n - 1 then true
    else if r + 1 = k then false
    else squareLoop n k fuel (modMul x x n) (r + 1)

/-- Does witness `a` pass, for n - 1 = q·2^k (R142)? K is at most 63 (R141). -/
def witnessPasses (n q k a : Nat) : Bool :=
  if modPow a q n = 1 then true else squareLoop n k 64 (modPow a q n) 0

/-- Steps 3 and 4 over a list of witnesses: prime at a witness equal to n, composite at the first that
fails, prime if all pass (R142). -/
def witnessLoop (n q k : Nat) : List Nat → Bool
  | [] => true
  | a :: rest =>
    if a = n then true
    else if witnessPasses n q k a then witnessLoop n q k rest
    else false

/-- `MR(n)` by rules R140-R142, not as "n is prime" (R144; log 12). -/
def millerRabin (n : Nat) : Bool :=
  if mrGuard n then false
  else witnessLoop n (halveLoop 64 (n - 1) 0).1 (halveLoop 64 (n - 1) 0).2 Config.witnesses

/-! ### Extended Euclid (R151) -/

/-- The remainder/coefficient pairs (d0,x0), (d1,x1) (R40, R151). -/
structure Euclid where
  d0 : Nat
  x0 : Nat
  d1 : Nat
  x1 : Nat
deriving DecidableEq, Repr

/-- One iteration of the loop, with T = D0 div D1 (R151). -/
def euclidIter (m : Nat) (s : Euclid) : Euclid :=
  { d0 := s.d1
    x0 := s.x1
    d1 := s.d0 - s.d0 / s.d1 * s.d1
    x1 := modSub s.x0 (modMul (s.d0 / s.d1) s.x1 m) m }

/-- The result once D1 ≤ 1 (R151). -/
def euclidResult (s : Euclid) : Nat := if s.d1 = 1 then s.x1 else 0

/-- The loop: while D1 > 1 (R151). -/
def euclidLoop (m : Nat) : Nat → Euclid → Nat
  | 0, s => euclidResult s
  | fuel + 1, s => if s.d1 > 1 then euclidLoop m fuel (euclidIter m s) else euclidResult s

/-- `INV(a, m)` by the reference sequence (R151). D1 at least halves every two iterations, so 128 of them
are enough for a 64-bit m. -/
def modInv (a m : Nat) : Nat :=
  euclidLoop m 128 { d0 := m, x0 := 0, d1 := a % m, x1 := 1 % m }

end Sys2Proof.Machine
end

