-- ==== Sys2Proof/Syntax.lean ====
section
/-! DEFINITION. The instructions: one constructor per row of the opcode table. -/

namespace Sys2Proof

/-- The six command words (R72, format CMD) and the two port transactions (R70, format XACT). A bare
command stands for the write of its word to CMD (R79); its operands come from OPA, OPB and OPM (R73). -/
inductive Instr where
  | madd
  | msub
  | mmul
  | mpow
  | mrtest
  | minv
  | regrd (reg : PortReg) (data : Word)
  | regwr (reg : PortReg) (data : Word)
deriving DecidableEq, Repr

end Sys2Proof
end

