-- ==== Sys2Proof/WellFormed.lean ====
section
/-! DEFINITION. Which instruction terms are well-formed text. -/

namespace Sys2Proof

/-- The one rule the types do not already say: a read carries DATA = 0 (R70: "must be written as 0 when
WE = 0"; R77 calls other read words ill-formed). The machine ignores the DATA of a read all the same. -/
def Instr.wf : Instr → Bool
  | .regrd _ data => data == 0#64
  | .madd | .msub | .mmul | .mpow | .mrtest | .minv => true
  | .regwr _ _ => true

end Sys2Proof
end

