-- ==== Sys2Proof/Decode.lean ====
section
/-! DEFINITION. The decoder, total on words and on bytes, and after it the encoder. -/

namespace Sys2Proof

/-- Why a word or a string of bytes is no instruction text. -/
inductive DecodeError where
  /-- A command word whose OPC is 0x0 or 0x7..0xF (R74). -/
  | reservedOpcode
  /-- A command word with a bit of RSV set (R75). -/
  | reservedBits
  /-- A read transaction word with DATA ≠ 0 (R77). -/
  | readWithData
  /-- Bits above bit 67 of a transaction word (R70: the word is 68 bits). -/
  | paddingBits
  /-- Neither 8 bytes (format CMD) nor 9 bytes (format XACT). -/
  | wrongLength
deriving DecidableEq, Repr

/-! ### Command words (R71, R72) -/

/-- OPC, bits 3:0 of a command word (R71). -/
def opcField (v : Word) : BitVec 4 := v.extractLsb' 0 4

/-- RSV, bits 63:4 of a command word (R71). -/
def rsvField (v : Word) : BitVec 60 := v.extractLsb' 4 60

/-- The opcode map (R72); the other ten values are reserved (R74). -/
def commandOfOpcode (opc : BitVec 4) : Option Command :=
  match opc.toNat with
  | 1 => some .madd
  | 2 => some .msub
  | 3 => some .mmul
  | 4 => some .mpow
  | 5 => some .mrtest
  | 6 => some .minv
  | _ => none

/-- The command decoder, total (R77): six legal words, every other one illegal (R74-R76). -/
def decodeCommand (v : Word) : Except DecodeError Command :=
  if rsvField v = 0#60 then
    match commandOfOpcode (opcField v) with
    | some c => .ok c
    | none => .error .reservedOpcode
  else .error .reservedBits

/-- The instruction a bare command is. -/
def Instr.ofCommand : Command → Instr
  | .madd => .madd
  | .msub => .msub
  | .mmul => .mmul
  | .mpow => .mpow
  | .mrtest => .mrtest
  | .minv => .minv

/-! ### Transaction words (R70) -/

/-- The register an index names; all eight are implemented (R20, R51). -/
def regOfIndex (idx : BitVec 3) : PortReg :=
  match idx.toNat with
  | 0 => .id
  | 1 => .ctrl
  | 2 => .status
  | 3 => .cmd
  | 4 => .opa
  | 5 => .opb
  | 6 => .opm
  | _ => .result

/-- WE, bit 67 (R70). -/
def weField (x : XactWord) : Bool := x.getLsbD 67

/-- IDX, bits 66:64 (R70). -/
def idxField (x : XactWord) : BitVec 3 := x.extractLsb' 64 3

/-- DATA, bits 63:0 (R70). -/
def dataField (x : XactWord) : Word := x.extractLsb' 0 64

/-- What the port sees of a transaction word: every one names one transaction (R77). -/
def transactionOf (x : XactWord) : Instr :=
  if weField x then .regwr (regOfIndex (idxField x)) (dataField x)
  else .regrd (regOfIndex (idxField x)) (dataField x)

/-- The decoder of transaction text: a read with DATA ≠ 0 is refused (R77; V6 of 93). -/
def decodeXact (x : XactWord) : Except DecodeError Instr :=
  if (transactionOf x).wf then .ok (transactionOf x) else .error .readWithData

/-! ### Bytes

The port has no bytes (R52). Words are laid out little-endian, as the adapter lays out registers (R53):
DESIGN CHOICE (log 13). -/

/-- The low `n` bytes of `w`, least significant first. -/
def bytesLE : Nat → Nat → List Byte
  | 0, _ => []
  | n + 1, w => BitVec.ofNat 8 w :: bytesLE n (w / 256)

/-- The number whose bytes, least significant first, are given. -/
def ofBytesLE : List Byte → Nat
  | [] => 0
  | b :: bs => b.toNat + 256 * ofBytesLE bs

/-- The decoder, total on bytes: 8 bytes are a command word, 9 bytes a transaction word. R76: "A decoder
tells the length from the format alone". -/
def decode (bs : List Byte) : Except DecodeError Instr :=
  if bs.length = 8 then
    (decodeCommand (BitVec.ofNat 64 (ofBytesLE bs))).map Instr.ofCommand
  else if bs.length = 9 then
    if ofBytesLE bs < 2 ^ 68 then decodeXact (BitVec.ofNat 68 (ofBytesLE bs))
    else .error .paddingBits
  else .error .wrongLength

/-- The bytes an instruction of `nbits` bits occupies: the command word's 8 or the transaction word's 9. -/
def formatBytes (nbits : Nat) : Nat := if nbits ≤ 64 then 8 else 9

/-- What the decoder reads from the opcode table's own numbering of an instruction's bits (bit 0 the least
significant of the word). A `w` that does not fit the format is no instruction. -/
def decodeTableWord (nbits w : Nat) : Option Instr :=
  if w < 2 ^ (8 * formatBytes nbits) then (decode (bytesLE (formatBytes nbits) w)).toOption else none

/-! ### The encoder -/

/-- The opcode of a command (R72). -/
def opcodeOf : Command → BitVec 4
  | .madd => 0x1#4
  | .msub => 0x2#4
  | .mmul => 0x3#4
  | .mpow => 0x4#4
  | .mrtest => 0x5#4
  | .minv => 0x6#4

/-- The index of a register (R20). -/
def indexOf : PortReg → BitVec 3
  | .id => 0#3
  | .ctrl => 1#3
  | .status => 2#3
  | .cmd => 3#3
  | .opa => 4#3
  | .opb => 5#3
  | .opm => 6#3
  | .result => 7#3

/-- The command word: RSV = 0, OPC (R71). -/
def commandWord (c : Command) : Word := 0#60 ++ opcodeOf c

/-- The transaction word: WE, IDX, DATA (R70). -/
def xactWord (we : Bool) (reg : PortReg) (data : Word) : XactWord :=
  BitVec.ofBool we ++ indexOf reg ++ data

/-- The bytes of an instruction, laid out as `decode` reads them. -/
def encode : Instr → List Byte
  | .madd => bytesLE 8 (commandWord .madd).toNat
  | .msub => bytesLE 8 (commandWord .msub).toNat
  | .mmul => bytesLE 8 (commandWord .mmul).toNat
  | .mpow => bytesLE 8 (commandWord .mpow).toNat
  | .mrtest => bytesLE 8 (commandWord .mrtest).toNat
  | .minv => bytesLE 8 (commandWord .minv).toNat
  | .regrd reg data => bytesLE 9 (xactWord false reg data).toNat
  | .regwr reg data => bytesLE 9 (xactWord true reg data).toNat

end Sys2Proof
end

