-- ==== Sys2Proof/Machine/State.lean ====
section
/-! DEFINITION. The state of the block as plain data, the reasons a step can stop, and the state after
reset. -/

namespace Sys2Proof.Machine

/-- STATUS.ERRCODE: NONE, ILLEGAL_CMD and MOD_ZERO are the values that occur; "3..15 never produced"
(R26). DEDUCED (log 9), exact. -/
inductive ErrCode where
  | none | illegalCmd | modZero
deriving DecidableEq, Repr

/-- The stored fields of STATUS (R26). -/
structure Status where
  busy : Bool
  done : Bool
  err : Bool
  ovr : Bool
  prime : Bool
  noinv : Bool
  errcode : ErrCode
deriving DecidableEq, Repr

/-- Where the engine stands in the reference sequence of the running command (R36: "The position inside a
running command ... is hidden state"; log 8). -/
inductive Position where
  /-- At the head of the one loop of MMUL, MPOW or MINV, or before the one operation of MADD or MSUB. -/
  | loop
  /-- MRTEST: at the head of the halving loop (R141). -/
  | halve
  /-- MRTEST: about to take the witness W.WI (R142). -/
  | witness
  /-- MRTEST: at the head of the squaring loop (R142). -/
  | square
  /-- MRTEST: the verdict stands. -/
  | declared (prime : Bool)
  /-- The other commands: the sequence has ended. -/
  | finished
deriving DecidableEq, Repr

/-- The sequencer state (R41). RUN carries the position inside the command. -/
inductive Sequencer where
  | idle
  | run (pos : Position)
deriving DecidableEq, Repr

/-- The hidden working registers W.*, at the widths of R40. -/
structure Working where
  op : BitVec 4
  a : Word
  b : Word
  m : Word
  acc : Word
  base : Word
  e : Word
  q : Word
  k : BitVec 6
  wi : BitVec 4
  x : Word
  r : BitVec 6
  d0 : Word
  x0 : Word
  d1 : Word
  x1 : Word
  t : Word
deriving DecidableEq, Repr

/-- One access of a platform's byte-addressed bus to the adapter (R53): a load of `size` bytes, or a store
of some bytes, lowest address first. -/
inductive BusAccess where
  | load (addr size : Nat)
  | store (addr : Nat) (bytes : List Byte)
deriving DecidableEq, Repr

/-- One event of the total order of R60 (R103): a host transaction in one of its three spellings, an
iteration of the engine's reference sequence (R42), a completion (R96), or a hard reset (R190). -/
inductive Event where
  /-- A transaction word presented at the port (R70). -/
  | xact (x : XactWord)
  /-- A bare command word: the write of it to CMD (R79; log 14). -/
  | cmd (v : Word)
  /-- An access through the adapter (R53). -/
  | bus (access : BusAccess)
  /-- The engine makes one iteration of the running command's reference sequence; no visible effect. -/
  | tick
  /-- The completion of the running command (R96). -/
  | complete
  /-- `rst_n` low, with the transaction the host may be presenting meanwhile (R190). -/
  | hardReset (presented : Option XactWord)
deriving DecidableEq, Repr

/-- The block and its surroundings. `rdata` is the port's output in the latest event: a value exactly when
that event was a read (R90, R91; log 4). `events` is what is still to happen, in order (log 1); `draws`
counts the free values drawn so far (log 6). The last two are the model's own. -/
structure State where
  ctrlIe : Bool
  status : Status
  lastCmd : Word
  opa : Word
  opb : Word
  opm : Word
  result : Word
  seq : Sequencer
  w : Working
  rdata : Option Word
  events : List Event
  draws : Nat
deriving DecidableEq, Repr

/-- Why a step can stop with a fault. -/
inductive Fault where
  /-- Raised by the engine (a completion or an iteration) where its next datapath call would have
  modulus 0, for which the functions are "not defined" (R120; U2 of 93). No reachable state raises it.
  Safe (log 11). -/
  | modulusZero
  /-- Raised by the engine (a completion or an iteration) in RUN where W.OP is the opcode of no command, for
  which R96 gives no F. No reachable state raises it. Safe (log 11). -/
  | noCommand
  /-- Raised by an iteration of the engine that needs `WITNESSES[WI]` where W.WI is over 11 (R142). No
  reachable state raises it. Safe (log 11). -/
  | noWitness
deriving DecidableEq, Repr

/-- Why a step can be refused. -/
inductive Refusal where
  /-- Raised by `exec` for an instruction without a meaning. No arm does. Safe. -/
  | notModelled (mnemonic : String)
  /-- Raised by the adapter for an access to the block that is not an aligned 8-byte one: "outside the
  interface" (R54; V7 of 93). Safe (log 16). -/
  | notAlignedDoubleword
  /-- Raised by the adapter for an address outside the block's 64 bytes: it names no register (R53).
  Safe (log 16). -/
  | outsideWindow
deriving DecidableEq, Repr

/-- STATUS after reset (R43). -/
def Status.reset : Status :=
  { busy := false, done := false, err := false, ovr := false, prime := false, noinv := false,
    errcode := .none }

/-- W.* in `State.reset`. R43 leaves them unspecified: DESIGN CHOICE (log 5), unsafe, all zero. -/
def Working.zero : Working :=
  { op := 0#4, a := 0#64, b := 0#64, m := 0#64, acc := 0#64, base := 0#64, e := 0#64, q := 0#64,
    k := 0#6, wi := 0#4, x := 0#64, r := 0#6, d0 := 0#64, x0 := 0#64, d1 := 0#64, x1 := 0#64, t := 0#64 }

/-- The block after a reset (R43), with no event pending. -/
def State.reset : State :=
  { ctrlIe := false, status := Status.reset, lastCmd := 0#64, opa := 0#64, opb := 0#64, opm := 0#64,
    result := 0#64, seq := .idle, w := Working.zero, rdata := none, events := [], draws := 0 }

end Sys2Proof.Machine
end

