-- ==== Sys2Proof/Machine/Operands.lean ====
section
/-! DEFINITION. Where a command's operands come from. There is one operand form: by register role (R73). -/

namespace Sys2Proof.Machine

/-- The commands that check OPM ≠ 0 and take it as their modulus (R102): all but MRTEST. -/
def needsModulus : Command → Bool
  | .madd | .msub | .mmul | .mpow | .minv => true
  | .mrtest => false

/-- The working registers an acceptance loads: W.OP, W.A, W.B, W.M from the operand registers as they stand
(R64, R73, R95). An ignored operand is latched too (R102). -/
def latchOperands (c : Command) (s : State) : Working :=
  { s.w with op := opcodeOf c, a := s.opa, b := s.opb, m := s.opm }

end Sys2Proof.Machine
end

