-- ==== Sys2Proof/Machine/Engine.lean ====
section
/-! DEFINITION. The engine's reference sequences on the working registers (R40-R42): what an acceptance
initialises and what one iteration does. Nothing outside can observe them (R42); the completion's result is
that of the datapath functions (R96), and the two agree (R42). Granularity: one event is one iteration of a
rule's loop, with `mod_mul` and `mod_pow` as primitives where R15 makes them so (log 8). -/

namespace Sys2Proof.Machine

/-- W.ACC, W.BASE, W.E as the loops see them. -/
def scanOf (w : Working) : Scan := { acc := w.acc.toNat, base := w.base.toNat, e := w.e.toNat }

/-- Write W.ACC, W.BASE, W.E back. -/
def putScan (w : Working) (s : Scan) : Working :=
  { w with acc := toWord s.acc, base := toWord s.base, e := toWord s.e }

/-- W.D0, W.X0, W.D1, W.X1 as the loop sees them. -/
def euclidOf (w : Working) : Euclid :=
  { d0 := w.d0.toNat, x0 := w.x0.toNat, d1 := w.d1.toNat, x1 := w.x1.toNat }

/-- Write W.D0, W.X0, W.D1, W.X1 back. -/
def putEuclid (w : Working) (s : Euclid) : Working :=
  { w with d0 := toWord s.d0, x0 := toWord s.x0, d1 := toWord s.d1, x1 := toWord s.x1 }

/-- The start of command `c`'s reference sequence, from its latched operands (R95: "The command's reference
sequence then initialises its working registers"): R121, R123, R130, R132, R140, R141, R151. -/
def initialise (c : Command) (w : Working) : Position × Working :=
  match c with
  | .madd | .msub => (.loop, w)
  | .mmul => (.loop, putScan w { acc := 0, base := w.a.toNat % w.m.toNat, e := w.b.toNat })
  | .mpow =>
    (.loop, putScan w { acc := 1 % w.m.toNat, base := w.a.toNat % w.m.toNat, e := w.b.toNat })
  | .mrtest =>
    if mrGuard w.a.toNat then (.declared false, w) else (.halve, { w with q := w.a - 1#64, k := 0#6 })
  | .minv =>
    (.loop,
      putEuclid w
        { d0 := w.m.toNat, x0 := 0, d1 := w.a.toNat % w.m.toNat, x1 := 1 % w.m.toNat })

/-- The witness that W.WI selects (R40, R142). -/
def currentWitness (w : Working) : Nat := Config.witnesses.getD w.wi.toNat 0

/-- A witness has passed: take the next one, or declare prime after the twelfth (R142). -/
def nextWitness (w : Working) : Position × Working :=
  if w.wi = 11#4 then (.declared true, w) else (.witness, { w with wi := w.wi + 1#4 })

/-- The head of MRTEST's witness loop (R142): W.X becomes x_0 unless the witness equals n. -/
def takeWitness (w : Working) : Position × Working :=
  if currentWitness w = w.a.toNat then (.declared true, w)
  else if modPow (currentWitness w) w.q.toNat w.a.toNat = 1 then
    nextWitness { w with x := 1#64 }
  else
    (.square,
      { w with x := toWord (modPow (currentWitness w) w.q.toNat w.a.toNat), r := 0#6 })

/-- The head of MRTEST's squaring loop (R142): compare x_r with n - 1, then square. -/
def squareStep (w : Working) : Position × Working :=
  if w.x = w.a - 1#64 then nextWitness w
  else if w.r + 1#6 = w.k then (.declared false, { w with r := w.r + 1#6 })
  else
    (.square,
      { w with r := w.r + 1#6, x := toWord (modMul w.x.toNat w.x.toNat w.a.toNat) })

/-- One iteration of the halving loop, or its end (R141). -/
def halveStep (w : Working) : Position × Working :=
  if w.q.getLsbD 0 then (.witness, { w with wi := 0#4 }) else (.halve, { w with q := w.q >>> 1, k := w.k + 1#6 })

/-- One iteration of MMUL's, MPOW's or MINV's loop, or its end (R130, R132, R151); the one operation of MADD
or MSUB, which no working register holds (R40). -/
def loopStep (w : Working) : Position × Working :=
  match commandOfOpcode w.op with
  | some .madd | some .msub | some .mrtest | none => (.finished, w)
  | some .mmul =>
    if w.e = 0#64 then (.finished, w) else (.loop, putScan w (mulIter w.m.toNat (scanOf w)))
  | some .mpow =>
    if w.e = 0#64 then (.finished, w) else (.loop, putScan w (powIter w.m.toNat (scanOf w)))
  | some .minv =>
    if w.d1.toNat > 1 then
      (.loop, { putEuclid w (euclidIter w.m.toNat (euclidOf w)) with t := w.d0 / w.d1 })
    else (.finished, w)

/-- One iteration of the reference sequence. A sequence that has ended stays where it is. -/
def advance : Position × Working → Position × Working
  | (.loop, w) => loopStep w
  | (.halve, w) => halveStep w
  | (.witness, w) => takeWitness w
  | (.square, w) => squareStep w
  | (.declared v, w) => (.declared v, w)
  | (.finished, w) => (.finished, w)

/-- `k` iterations. -/
def advanceN : Nat → Position × Working → Position × Working
  | 0, p => p
  | k + 1, p => advanceN k (advance p)

/-- The command the engine runs, or why R96 gives it no result: W.OP is no command's opcode, or a modulus
command holds W.M = 0, for which no datapath function is defined (R120, U2; log 11). -/
def runnable (w : Working) : Except Fault Command :=
  match commandOfOpcode w.op with
  | none => .error .noCommand
  | some c => if needsModulus c && w.m == 0#64 then .error .modulusZero else .ok c

/-- MRTEST past its guard: the positions at which n is a modulus or about to be one (R141, R142). -/
def pastGuard : Position → Bool
  | .halve | .witness | .square => true
  | .loop | .declared _ | .finished => false

/-- MRTEST inside its loop over the witnesses (R142). -/
def insideWitnesses : Position → Bool
  | .witness | .square => true
  | .loop | .halve | .declared _ | .finished => false

/-- Why the next iteration is not defined, if it is not: the command is not, MRTEST is past its guard with
n = 0, or `WITNESSES[WI]` does not exist (log 11). -/
def iterationFault (pos : Position) (w : Working) : Option Fault :=
  match runnable w with
  | .error f => some f
  | .ok _ =>
    if pastGuard pos && w.a == 0#64 then some .modulusZero
    else if insideWitnesses pos && !(w.wi.toNat < 12) then some .noWitness
    else none

/-- The engine's hidden event: one iteration of the running command (R42). Nothing in IDLE (log 3). -/
def tick (s : State) : Host.Outcome State Fault Refusal :=
  match s.seq with
  | .idle => .next s
  | .run pos =>
    match iterationFault pos s.w with
    | some f => .fault f
    | none => .next { s with seq := .run (advance (pos, s.w)).1, w := (advance (pos, s.w)).2 }

end Sys2Proof.Machine
end

