-- ==== Sys2Proof/Machine/Flags.lean ====
section
/-! DEFINITION. The status word, the flags each event writes, and the interrupt line. -/

namespace Sys2Proof.Machine

/-- The ERRCODE field (R26, R160). -/
def errCodeField : ErrCode → BitVec 4
  | .none => 0#4
  | .illegalCmd => 1#4
  | .modZero => 2#4

/-- STATUS as a read returns it (R91): ERRCODE in 11:8, NOINV 5, PRIME 4, OVR 3, ERR 2, DONE 1, BUSY 0. -/
def statusWord (st : Status) : Word :=
  0#52 ++ errCodeField st.errcode ++ 0#2 ++ BitVec.ofBool st.noinv ++ BitVec.ofBool st.prime ++
    BitVec.ofBool st.ovr ++ BitVec.ofBool st.err ++ BitVec.ofBool st.done ++ BitVec.ofBool st.busy

/-- CTRL as a read returns it: zext_64(IE); SRST reads 0 (R91). -/
def ctrlWord (ie : Bool) : Word := (BitVec.ofBool ie).setWidth 64

/-- The flags after an acceptance (R95): BUSY set; DONE, ERR, ERRCODE, PRIME and NOINV cleared; OVR kept. -/
def flagsAccepted (st : Status) : Status :=
  { busy := true, done := false, err := false, ovr := st.ovr, prime := false, noinv := false,
    errcode := .none }

/-- The flags after `raise Error(code)` (R161): ERR, ERRCODE and DONE set; PRIME and NOINV cleared; BUSY
and OVR kept. -/
def flagsRaised (code : ErrCode) (st : Status) : Status :=
  { st with err := true, errcode := code, done := true, prime := false, noinv := false }

/-- The flags after an overrun (R164): OVR alone. -/
def flagsOverrun (st : Status) : Status := { st with ovr := true }

/-- The flags every completion writes (R96): BUSY cleared, DONE set. -/
def flagsCompleted (st : Status) : Status := { st with busy := false, done := true }

/-- The write-one-to-clear of STATUS (R98): bit 1 clears DONE, bit 2 ERR and ERRCODE, bit 3 OVR. -/
def flagsCleared (v : Word) (st : Status) : Status :=
  { st with
    done := st.done && !v.getLsbD 1
    err := st.err && !v.getLsbD 2
    errcode := if v.getLsbD 2 then .none else st.errcode
    ovr := st.ovr && !v.getLsbD 3 }

/-- The level interrupt output, computed, not stored (R38, R168). -/
def irq (s : State) : Bool := s.ctrlIe && (s.status.done || s.status.ovr)

end Sys2Proof.Machine
end

