-- ==== Sys2Proof/Machine/Ops.lean ====
section
/-! DEFINITION. The operations the instructions share: resets, the error operation, acceptance, the command
write, the other register writes, the register read, and the end of a command. -/

namespace Sys2Proof.Machine

/-! ### Reset (R43, R190, R191) -/

/-- How many free values the working registers take after a reset. -/
def workingDraws : Nat := 17

/-- W.* after a reset: "unspecified" (R43), so free values (P5 of 93; log 6). Draws `d` to `d + 16`. -/
def freeWorking (d : Nat) : Working :=
  { op := (Config.freeWord d).setWidth 4
    a := Config.freeWord (d + 1)
    b := Config.freeWord (d + 2)
    m := Config.freeWord (d + 3)
    acc := Config.freeWord (d + 4)
    base := Config.freeWord (d + 5)
    e := Config.freeWord (d + 6)
    q := Config.freeWord (d + 7)
    k := (Config.freeWord (d + 8)).setWidth 6
    wi := (Config.freeWord (d + 9)).setWidth 4
    x := Config.freeWord (d + 10)
    r := (Config.freeWord (d + 11)).setWidth 6
    d0 := Config.freeWord (d + 12)
    x0 := Config.freeWord (d + 13)
    d1 := Config.freeWord (d + 14)
    x1 := Config.freeWord (d + 15)
    t := Config.freeWord (d + 16) }

/-- Every piece of the block's state to the reset table (R43), the running command abandoned. The port's
output and the pending events are not the block's state and stay. -/
def resetBlock (s : State) : State :=
  { State.reset with
    w := freeWorking s.draws
    rdata := s.rdata
    events := s.events
    draws := s.draws + workingDraws }

/-- A hard reset event (R190). A write presented meanwhile has no effect (P7); a read presented meanwhile
returns unspecified data, a free value (P6; log 7). -/
def hardReset (presented : Option XactWord) (s : State) : State :=
  match presented with
  | some x =>
    if weField x then resetBlock s
    else
      { resetBlock s with
        rdata := some (Config.freeWord (s.draws + workingDraws))
        draws := s.draws + workingDraws + 1 }
  | none => resetBlock s

/-! ### Errors, acceptance and the command write (R94, R95, R161-R165) -/

/-- `raise Error(code)` (R161): the block's one exception operation. It has no saved registers and no
handler address (R170), and no return beside the host's clearing of the flags (R171). -/
def raiseError (code : ErrCode) (s : State) : State :=
  { s with status := flagsRaised code s.status }

/-- `Accept(op)` (R95), with the start of the command's reference sequence. -/
def accept (c : Command) (s : State) : State :=
  { s with
    status := flagsAccepted s.status
    seq := .run (initialise c (latchOperands c s)).1
    w := (initialise c (latchOperands c s)).2 }

/-- `CommandWrite(v)` (R94), in the order of R165: overrun, illegal, modulus zero, accept. -/
def commandWrite (v : Word) (s : State) : State :=
  if s.status.busy then { s with status := flagsOverrun s.status }
  else
    match decodeCommand v with
    | .error _ => raiseError .illegalCmd { s with lastCmd := v }
    | .ok c =>
      if needsModulus c && s.opm == 0#64 then raiseError .modZero { s with lastCmd := v }
      else accept c { s with lastCmd := v }

/-! ### The other registers (R91-R93, R98-R100) -/

/-- `StatusWrite(v)` (R98). -/
def statusWrite (v : Word) (s : State) : State := { s with status := flagsCleared v s.status }

/-- `CtrlWrite(v)` (R99): bit 1 is a soft reset (R191), else bit 0 is IE. -/
def ctrlWrite (v : Word) (s : State) : State :=
  if v.getLsbD 1 then resetBlock s else { s with ctrlIe := v.getLsbD 0 }

/-- `PortRead(idx)` (R91). -/
def portRead (reg : PortReg) (s : State) : Word :=
  match reg with
  | .id => Config.coreId
  | .ctrl => ctrlWord s.ctrlIe
  | .status => statusWord s.status
  | .cmd => s.lastCmd
  | .opa => s.opa
  | .opb => s.opb
  | .opm => s.opm
  | .result => s.result

/-- `PortWrite(idx, v)` (R92). Writes to ID and RESULT are performed and have no effect (R100). -/
def portWrite (reg : PortReg) (v : Word) (s : State) : State :=
  match reg with
  | .id => s
  | .ctrl => ctrlWrite v s
  | .status => statusWrite v s
  | .cmd => commandWrite v s
  | .opa => { s with opa := v }
  | .opb => { s with opb := v }
  | .opm => { s with opm := v }
  | .result => s

/-! ### The end of a command (R96) -/

/-- What every completion writes (R96): RESULT, BUSY, DONE and the sequencer. "Only the named fields
change", so W.* stay. -/
def finish (res : Word) (s : State) : State :=
  { s with result := res, status := flagsCompleted s.status, seq := .idle }

end Sys2Proof.Machine
end

