-- ==== Sys2Proof/Machine/AddSub.lean ====
section
/-! DEFINITION. MADD and MSUB. -/

namespace Sys2Proof.Machine

/-- MADD (R121): the write of its command word (R79, R94). -/
def execMadd (s : State) : Host.Outcome State Fault Refusal := .next (commandWrite (commandWord .madd) s)

/-- MADD at completion (R121): RESULT is `mod_add(W.A, W.B, W.M)`. -/
def completeMadd (s : State) : State :=
  finish (toWord (modAdd s.w.a.toNat s.w.b.toNat s.w.m.toNat)) s

/-- MSUB (R123): the write of its command word (R79, R94). -/
def execMsub (s : State) : Host.Outcome State Fault Refusal := .next (commandWrite (commandWord .msub) s)

/-- MSUB at completion (R123): RESULT is `mod_sub(W.A, W.B, W.M)`. -/
def completeMsub (s : State) : State :=
  finish (toWord (modSub s.w.a.toNat s.w.b.toNat s.w.m.toNat)) s

end Sys2Proof.Machine
end

