-- ==== Sys2Proof/Machine/Inverse.lean ====
section
/-! DEFINITION. MINV. -/

namespace Sys2Proof.Machine

/-- MINV (R152): the write of its command word (R79, R94). -/
def execMinv (s : State) : Host.Outcome State Fault Refusal := .next (commandWrite (commandWord .minv) s)

/-- STATUS.NOINV as an MINV completion sets it (R35, R152). -/
def setNoinv (n : Bool) (s : State) : State := { s with status := { s.status with noinv := n } }

/-- MINV at completion (R152): RESULT is INV(W.A, W.M), NOINV says whether it is 0. R96 lists the flag in the
second place of its triple; R96's own assignment and R152 make it NOINV. DEDUCED (log 10). -/
def completeMinv (s : State) : State :=
  setNoinv (toWord (modInv s.w.a.toNat s.w.m.toNat) == 0#64)
    (finish (toWord (modInv s.w.a.toNat s.w.m.toNat)) s)

end Sys2Proof.Machine
end

