-- ==== Sys2Proof/Machine/MulPow.lean ====
section
/-! DEFINITION. MMUL and MPOW. -/

namespace Sys2Proof.Machine

/-- MMUL (R131): the write of its command word (R79, R94). -/
def execMmul (s : State) : Host.Outcome State Fault Refusal := .next (commandWrite (commandWord .mmul) s)

/-- MMUL at completion (R131): RESULT is `mod_mul(W.A, W.B, W.M)`. -/
def completeMmul (s : State) : State :=
  finish (toWord (modMul s.w.a.toNat s.w.b.toNat s.w.m.toNat)) s

/-- MPOW (R133): the write of its command word (R79, R94). -/
def execMpow (s : State) : Host.Outcome State Fault Refusal := .next (commandWrite (commandWord .mpow) s)

/-- MPOW at completion (R133): RESULT is `mod_pow(W.A, W.B, W.M)`. -/
def completeMpow (s : State) : State :=
  finish (toWord (modPow s.w.a.toNat s.w.b.toNat s.w.m.toNat)) s

end Sys2Proof.Machine
end

