-- ==== Sys2Proof/Machine/Primality.lean ====
section
/-! DEFINITION. MRTEST. -/

namespace Sys2Proof.Machine

/-- MRTEST (R143): the write of its command word (R79, R94). OPM is not checked (R102). -/
def execMrtest (s : State) : Host.Outcome State Fault Refusal :=
  .next (commandWrite (commandWord .mrtest) s)

/-- STATUS.PRIME as an MRTEST completion sets it (R34, R143). -/
def setPrime (p : Bool) (s : State) : State := { s with status := { s.status with prime := p } }

/-- MRTEST at completion (R143): RESULT is zext_64(MR(W.A)), PRIME the same bit. -/
def completeMrtest (s : State) : State :=
  setPrime (millerRabin s.w.a.toNat)
    (finish ((BitVec.ofBool (millerRabin s.w.a.toNat)).setWidth 64) s)

end Sys2Proof.Machine
end

