-- ==== Sys2Proof/Machine/Completion.lean ====
section
/-! DEFINITION. The completion event. -/

namespace Sys2Proof.Machine

/-- What a completion of command `c` writes (R96). -/
def completeCommand (c : Command) (s : State) : State :=
  match c with
  | .madd => completeMadd s
  | .msub => completeMsub s
  | .mmul => completeMmul s
  | .mpow => completeMpow s
  | .mrtest => completeMrtest s
  | .minv => completeMinv s

/-- `Complete()` (R96): F of W.OP, and the fields it names. Where F is not defined, which is in no reachable
state, it faults (U2; log 11). -/
def complete (s : State) : Host.Outcome State Fault Refusal :=
  match runnable s.w with
  | .error f => .fault f
  | .ok c => .next (completeCommand c s)

/-- A `complete` event: the completion where it is enabled, that is in RUN (R103). In IDLE there is nothing
to complete (log 3). -/
def completeIfRunning (s : State) : Host.Outcome State Fault Refusal :=
  match s.seq with
  | .idle => .next s
  | .run _ => complete s

end Sys2Proof.Machine
end

