-- ==== Sys2Proof/Machine/Port.lean ====
section
/-! DEFINITION. REGRD and REGWR, and the adapter that turns a bus access into one of them. -/

namespace Sys2Proof.Machine

/-- REGRD (R91): the port returns the register's value; nothing else changes (R56). DATA is ignored (R77). -/
def execRegrd (reg : PortReg) (_data : Word) (s : State) : Host.Outcome State Fault Refusal :=
  .next { s with rdata := some (portRead reg s) }

/-- REGWR (R92). -/
def execRegwr (reg : PortReg) (data : Word) (s : State) : Host.Outcome State Fault Refusal :=
  .next (portWrite reg data s)

/-- The register whose 8 bytes hold a byte address: `BASE + 8·idx + j` (R53). -/
def regAtAddress (addr : Nat) : Option PortReg :=
  if Config.base ≤ addr ∧ addr < Config.base + 64 then
    some (regOfIndex (BitVec.ofNat 3 ((addr - Config.base) / 8)))
  else none

/-- The transaction of a bus access (R53): aligned 8-byte accesses of the block's window only; the model
refuses the others (R54; log 16). -/
def busTransaction (access : BusAccess) : Except Refusal Instr :=
  match access with
  | .load addr size =>
    match regAtAddress addr with
    | none => .error .outsideWindow
    | some reg =>
      if size = 8 ∧ addr % 8 = 0 then .ok (.regrd reg 0#64) else .error .notAlignedDoubleword
  | .store addr bytes =>
    match regAtAddress addr with
    | none => .error .outsideWindow
    | some reg =>
      if bytes.length = 8 ∧ addr % 8 = 0 then .ok (.regwr reg (BitVec.ofNat 64 (ofBytesLE bytes)))
      else .error .notAlignedDoubleword

/-- What the adapter puts on the platform's bus in the latest event, lowest address first: when a register was
read, its 8 bytes, byte j holding bits 8j+7:8j (R53). An output like `irq`: computed from `rdata`, not
stored. -/
def busRdata (s : State) : Option (List Byte) := s.rdata.map fun v => bytesLE 8 v.toNat

end Sys2Proof.Machine
end

