-- ==== Sys2Proof/Machine/Dispatch.lean ====
section
/-! DEFINITION. One arm per instruction. -/

namespace Sys2Proof.Machine

def exec (i : Instr) (s : State) : Host.Outcome State Fault Refusal :=
  match i with
  | .madd => Sys2Proof.Machine.execMadd s
  | .msub => Sys2Proof.Machine.execMsub s
  | .mmul => Sys2Proof.Machine.execMmul s
  | .mpow => Sys2Proof.Machine.execMpow s
  | .mrtest => Sys2Proof.Machine.execMrtest s
  | .minv => Sys2Proof.Machine.execMinv s
  | .regrd reg data => Sys2Proof.Machine.execRegrd reg data s
  | .regwr reg data => Sys2Proof.Machine.execRegwr reg data s

end Sys2Proof.Machine
end

