-- ==== Sys2Proof/Machine/Events.lean ====
section
/-! DEFINITION. What one event of the total order does (R60, R103), and the spellings of a host
transaction. -/

namespace Sys2Proof.Machine

/-- The instruction of a command word event: the command it decodes to, else the write of that word to CMD,
which is what a bare command word stands for (R79) and which reports ILLEGAL_CMD (R163; V1, V2 of 93;
log 14). -/
def commandInstr (v : Word) : Instr :=
  match decodeCommand v with
  | .ok c => Instr.ofCommand c
  | .error _ => .regwr .cmd v

/-- One event of the total order, at the state it finds. -/
def perform (ev : Event) (s : State) : Host.Outcome State Fault Refusal :=
  match ev with
  | .xact x => exec (transactionOf x) s
  | .cmd v => exec (commandInstr v) s
  | .bus access =>
    match busTransaction access with
    | .ok i => exec i s
    | .error r => .refused r
  | .tick => tick s
  | .complete => completeIfRunning s
  | .hardReset presented => .next (hardReset presented s)

/-- The host transaction an event is, if it is one the block performs. -/
def eventInstr (ev : Event) : Option Instr :=
  match ev with
  | .xact x => some (transactionOf x)
  | .cmd v => some (commandInstr v)
  | .bus access => (busTransaction access).toOption
  | .tick | .complete | .hardReset _ => none

/-- The word an instruction writes to CMD, if it does (R79, R92). -/
def commandOf (i : Instr) : Option Word :=
  match i with
  | .madd => some 0x1#64
  | .msub => some 0x2#64
  | .mmul => some 0x3#64
  | .mpow => some 0x4#64
  | .mrtest => some 0x5#64
  | .minv => some 0x6#64
  | .regwr .cmd v => some v
  | .regwr _ _ => none
  | .regrd _ _ => none

/-- The word an event writes to CMD, if it does. -/
def commandWritten (ev : Event) : Option Word := (eventInstr ev).bind commandOf

/-- Take an event off the list: `rest` is to happen after it, and no read data is on the port yet. -/
def beginEvent (rest : List Event) (s : State) : State := { s with rdata := none, events := rest }

/-- The event that presents an instruction word of the opcode table's numbering: a bare command for the
64-bit format, a transaction for the 68-bit one. -/
def eventOfWord (nbits w : Nat) : Event :=
  if nbits ≤ 64 then .cmd (BitVec.ofNat 64 w) else .xact (BitVec.ofNat 68 w)

/-- Put the event of an instruction word first in line. -/
def presentWord (nbits w : Nat) (s : State) : State :=
  { s with events := eventOfWord nbits w :: s.events }

end Sys2Proof.Machine
end

