-- ==== Sys2Proof/Machine/Step.lean ====
section
/-! DEFINITION. One step: the next event of the total order. -/

namespace Sys2Proof.Machine

/-- The next event happens (R60). When no event is left, a running command completes, because a command in
RUN eventually does (R97; log 2), and an idle block keeps its state (R178; log 3). -/
def step (s : State) : Host.Outcome State Fault Refusal :=
  match s.events with
  | ev :: rest => perform ev (beginEvent rest s)
  | [] => completeIfRunning (beginEvent [] s)

/-- `s` with an instruction word as the very next event (log 1). -/
def State.withFetchWord (s : State) (nbits w : Nat) : State := presentWord nbits w s

end Sys2Proof.Machine
end

