-- ==== Sys2Proof/Machine/Script.lean ====
section
/-! DEFINITION. The host-script syntax's `wait` and pseudo-instructions (R80), and which orders of events are a
run of a script. The syntax itself is text outside the block (R78). -/

namespace Sys2Proof.Machine

/-- A line of a host script: one transaction, or `wait` (R78-R80). -/
inductive ScriptLine where
  | transact (i : Instr)
  | wait
deriving DecidableEq, Repr

/-- `rd REG` (R78). -/
def readOf (reg : PortReg) : Instr := .regrd reg 0#64

/-- Two spellings of one transaction: a bare command is the write of its word to CMD (R79). -/
def sameTransaction (i j : Instr) : Bool := i == j || ((commandOf i).isSome && commandOf i == commandOf j)

/-- Bit 0 of the value the latest event read (R80's test of BUSY). -/
def readBusy (s : State) : Bool := s.rdata.any fun v => v.getLsbD 0

/-- The events, from `s`, are a run of the script: its transactions in order, with engine events and hard
resets anywhere between (R60, R97), up to its last transaction (R104). A `wait` reads STATUS "until bit 0
(BUSY) of the value read is 0" (R80), so how many reads it takes follows from where the completion falls (P8;
log 20).

DESIGN CHOICE (log 20): the spec does not say whether a transaction presented during a hard reset counts as its
script's line. Here it never does, neither a `transact` line nor a read of a `wait`, whatever its data (R190,
P6): the line is still to come after the reset. -/
def followsScript : List Event → List ScriptLine → State → Bool
  | [], lines, _ => lines.isEmpty
  | _ :: _, [], _ => false
  | ev :: rest, line :: more, s =>
    match perform ev (beginEvent rest s) with
    | .fault _ => false
    | .refused _ => false
    | .next t =>
      match eventInstr ev, line with
      | none, _ => followsScript rest (line :: more) t
      | some i, .transact j => sameTransaction i j && followsScript rest more t
      | some i, .wait =>
        i == readOf .status && followsScript rest (if readBusy t then .wait :: more else more) t

/-- `madd a, b, m`, `msub a, b, m`, `mmul a, b, m` and `mpow a, b, m` (R80). -/
def callThree (c : Command) (a b m : Word) : List ScriptLine :=
  [.transact (.regwr .opa a), .transact (.regwr .opb b), .transact (.regwr .opm m),
    .transact (Instr.ofCommand c), .wait, .transact (readOf .result)]

/-- `mrtest n` (R80). -/
def callMrtest (n : Word) : List ScriptLine :=
  [.transact (.regwr .opa n), .transact .mrtest, .wait, .transact (readOf .result)]

/-- `minv a, m` (R80). -/
def callMinv (a m : Word) : List ScriptLine :=
  [.transact (.regwr .opa a), .transact (.regwr .opm m), .transact .minv, .wait,
    .transact (readOf .result)]

/-- The call form of each command; MRTEST has only `a` and MINV only `a` and `m` (R80). -/
def callForm (c : Command) (a b m : Word) : List ScriptLine :=
  match c with
  | .madd | .msub | .mmul | .mpow => callThree c a b m
  | .mrtest => callMrtest a
  | .minv => callMinv a m

/-- `clrst`: clears DONE, ERR and OVR (R80). -/
def clrst : Instr := .regwr .status 0xE#64

/-- `srst`: soft reset (R80). -/
def srst : Instr := .regwr .ctrl 0x2#64

/-- `ien` (R80). -/
def ien : Instr := .regwr .ctrl 0x1#64

/-- `idis` (R80). -/
def idis : Instr := .regwr .ctrl 0x0#64

end Sys2Proof.Machine
end

