-- ==== Sys2Proof/Safety.lean ====
section
/-! DEFINITION. The terms claims are stated in: the invariant of the block, what an event is to the host, and
when a run is over. -/

namespace Sys2Proof.Machine

/-- The sequencer is in RUN (R41). -/
def running (s : State) : Bool :=
  match s.seq with
  | .idle => false
  | .run _ => true

/-- The engine runs command `c` on these latched operands (R41, R95). -/
def holdsCommand (c : Command) (a b m : Word) (s : State) : Prop :=
  running s = true ∧ s.w.op = opcodeOf c ∧ s.w.a = a ∧ s.w.b = b ∧ s.w.m = m

/-- The invariant of STATUS (R41, R44). -/
abbrev statusInv (s : State) : Prop :=
  s.status.busy = running s ∧
  (s.status.busy = true → s.status.done = false ∧ s.status.err = false ∧ s.status.errcode = .none ∧
    s.status.prime = false ∧ s.status.noinv = false) ∧
  (s.status.err = true → s.status.errcode = .illegalCmd ∨ s.status.errcode = .modZero) ∧
  (s.status.err = false → s.status.errcode = .none) ∧
  (s.status.prime = true → s.result = 1#64) ∧
  (s.status.noinv = true → s.result = 0#64) ∧
  ¬ (s.status.prime = true ∧ s.status.noinv = true)

/-- The running command's next iteration and its completion are defined (R120, R142, R162; U2 of 93). -/
def engineInv (s : State) : Bool :=
  match s.seq with
  | .idle => true
  | .run pos => (iterationFault pos s.w).isNone

/-- The invariant every step keeps. -/
abbrev Inv (s : State) : Prop := statusInv s ∧ engineInv s = true

/-- In RUN the working registers hold a state of the running command's reference sequence (R41). -/
def onSequence (s : State) : Prop :=
  ∀ pos, s.seq = .run pos → ∃ (k : Nat) (c : Command) (w : Working),
    s.w.op = opcodeOf c ∧ w.op = s.w.op ∧ w.a = s.w.a ∧ w.b = s.w.b ∧ w.m = s.w.m ∧
      advanceN k (initialise c w) = (pos, s.w)

/-- The instruction is a soft reset: a write of CTRL with bit 1 set (R99, R191). -/
def softResets (i : Instr) : Bool :=
  match i with
  | .regwr .ctrl v => v.getLsbD 1
  | _ => false

/-- The event resets the block (R190, R191). -/
def resets (ev : Event) : Bool :=
  match ev with
  | .hardReset _ => true
  | .xact _ | .cmd _ | .bus _ | .tick | .complete =>
    match eventInstr ev with
    | some i => softResets i
    | none => false

/-- The run is over: no event left and the sequencer IDLE (R104). -/
def runOver (s : State) : Bool := s.events.isEmpty && !running s

/-- Two states that the host cannot tell apart now or later (R42): everything equal but the working
registers, of which only the running command's opcode and operands must agree, and its position. -/
def looksAlike (s t : State) : Prop :=
  running s = running t ∧
  (running s = true → s.w.op = t.w.op ∧ s.w.a = t.w.a ∧ s.w.b = t.w.b ∧ s.w.m = t.w.m) ∧
  { s with seq := t.seq, w := t.w } = t

end Sys2Proof.Machine
end

