-- ==== Sys2Proof/Certificates/Slice0/Obligations.lean ====
section
/-! DEFINITION. The statements for the provers. -/

open Sys2Proof Sys2Proof.Machine

/-! ### Encoding -/

/-- Words written out from the encodings of R70, R71 and table 2.8 of 95 decode to what they stand for: the six
command words, two illegal ones, and a read and a write of each of the eight register indexes of R20. -/
def Obligations.SpecWordsDecodeAsWritten : Prop :=
  decodeCommand 0x1#64 = .ok .madd ∧ decodeCommand 0x2#64 = .ok .msub ∧
  decodeCommand 0x3#64 = .ok .mmul ∧ decodeCommand 0x4#64 = .ok .mpow ∧
  decodeCommand 0x5#64 = .ok .mrtest ∧ decodeCommand 0x6#64 = .ok .minv ∧
  decodeCommand 0x0#64 = .error .reservedOpcode ∧ decodeCommand 0x13#64 = .error .reservedBits ∧
  decodeXact 0x00000000000000000#68 = .ok (.regrd .id 0#64) ∧
  decodeXact 0x10000000000000000#68 = .ok (.regrd .ctrl 0#64) ∧
  decodeXact 0x20000000000000000#68 = .ok (.regrd .status 0#64) ∧
  decodeXact 0x30000000000000000#68 = .ok (.regrd .cmd 0#64) ∧
  decodeXact 0x40000000000000000#68 = .ok (.regrd .opa 0#64) ∧
  decodeXact 0x50000000000000000#68 = .ok (.regrd .opb 0#64) ∧
  decodeXact 0x60000000000000000#68 = .ok (.regrd .opm 0#64) ∧
  decodeXact 0x70000000000000000#68 = .ok (.regrd .result 0#64) ∧
  decodeXact 0x80000000000000005#68 = .ok (.regwr .id 5#64) ∧
  decodeXact 0x90000000000000005#68 = .ok (.regwr .ctrl 5#64) ∧
  decodeXact 0xA0000000000000005#68 = .ok (.regwr .status 5#64) ∧
  decodeXact 0xB0000000000000005#68 = .ok (.regwr .cmd 5#64) ∧
  decodeXact 0xC0000000000000005#68 = .ok (.regwr .opa 5#64) ∧
  decodeXact 0xD0000000000000005#68 = .ok (.regwr .opb 5#64) ∧
  decodeXact 0xE0000000000000005#68 = .ok (.regwr .opm 5#64) ∧
  decodeXact 0xF0000000000000005#68 = .ok (.regwr .result 5#64) ∧
  decodeXact 0x70000000000000001#68 = .error .readWithData

/-- Decoding the encoding of a well-formed instruction gives it back, at every operand value (R70-R72). The
byte layout is the model's choice (log 13). -/
def Obligations.DecodeOfEncodeIsIdentity : Prop :=
  ∀ i : Instr, i.wf = true → decode (encode i) = .ok i

/-- Every byte string the decoder accepts is the encoding of the well-formed instruction it gives. The byte
layout is the model's choice (log 13). -/
def Obligations.AcceptedBytesAreTheEncoding : Prop :=
  ∀ (bs : List Byte) (i : Instr), decode bs = .ok i → i.wf = true ∧ encode i = bs

/-- R76: "Of the 2^64 command words, exactly the six with RSV = 0 and OPC ∈ {0x1..0x6} are legal", and R72's
opcode map. -/
def Obligations.LegalCommandWordsAreTheSixOpcodes : Prop :=
  ∀ (v : Word) (c : Command),
    decodeCommand v = .ok c ↔
      (v = 1#64 ∧ c = .madd) ∨ (v = 2#64 ∧ c = .msub) ∨ (v = 3#64 ∧ c = .mmul) ∨
      (v = 4#64 ∧ c = .mpow) ∨ (v = 5#64 ∧ c = .mrtest) ∨ (v = 6#64 ∧ c = .minv)

/-- R77: every transaction word names one transaction, read off its fields by number: bit 67 is WE, bits
66:64 are IDX, bits 63:0 are DATA (R70); and the DATA of a read has no effect. -/
def Obligations.TransactionWordFieldsAreReadByPosition : Prop :=
  ∀ (we : Bool) (reg : PortReg) (v : Word) (x : XactWord),
    x.toNat = (if we then 2 ^ 67 else 0) + (indexOf reg).toNat * 2 ^ 64 + v.toNat →
      transactionOf x = (if we then .regwr reg v else .regrd reg v) ∧
      ∀ s : State, we = false → perform (.xact x) s = exec (.regrd reg 0#64) s

/-! ### The step -/

/-- A step runs the decoded instruction: with a transaction or a command word first in the event list, step
is exec of what it decodes to, with the event taken off the list and the port's read output cleared. The
event list and the cleared output are the model's (log 1, log 4). -/
def Obligations.StepRunsTheDecodedInstruction : Prop :=
  ∀ (s : State) (rest : List Event) (i : Instr),
    (∀ x : XactWord, s.events = .xact x :: rest → decodeXact x = .ok i →
      step s = exec i { s with rdata := none, events := rest }) ∧
    (∀ (v : Word) (c : Command), s.events = .cmd v :: rest → decodeCommand v = .ok c →
      step s = exec (Instr.ofCommand c) { s with rdata := none, events := rest })

/-- The very next step after `withFetchWord` runs the instruction the decoder reads from the word, for
words of either format that fit it. Presenting a word as the next event is the model's (log 1, log 14). -/
def Obligations.FetchedWordRunsNext : Prop :=
  ∀ (s : State) (nbits w : Nat) (i : Instr), decodeTableWord nbits w = some i →
    step (s.withFetchWord nbits w) = exec i { s with rdata := none }

/-! ### Reset -/

/-- The reset table of R43, but for the working registers, which it leaves unspecified; and what the port
shows then. The irq output is 0. -/
def Obligations.ResetHoldsTheResetTable : Prop :=
  let s := State.reset
  portRead .id s = 0x4D4F444152490001#64 ∧ portRead .ctrl s = 0#64 ∧ portRead .status s = 0#64 ∧
  portRead .cmd s = 0#64 ∧ portRead .opa s = 0#64 ∧ portRead .opb s = 0#64 ∧ portRead .opm s = 0#64 ∧
  portRead .result s = 0#64 ∧ s.seq = .idle ∧ irq s = false ∧
  s.status =
    { busy := false, done := false, err := false, ovr := false, prime := false, noinv := false
      errcode := .none }

/-- A soft reset (R99, R191): a write of CTRL with bit 1 set puts every piece of the block's state to the
reset table, whatever the other bits, abandoning a running command. The working registers are unspecified
(R43) and stay out of the claim, and so does the count of free values drawn. Keeping the pending events and
the port's output is the model's (log 21). -/
def Obligations.SoftResetRestoresTheResetTable : Prop :=
  ∀ (s : State) (v : Word), v.getLsbD 1 = true →
    ∃ t, exec (.regwr .ctrl v) s = .next t ∧
      t = { State.reset with w := t.w, rdata := s.rdata, events := s.events, draws := t.draws } ∧
      portRead .ctrl t = 0#64 ∧ irq t = false

/-- A hard reset (R190): the reset table, whatever transaction the host presents meanwhile; no write lands
and no command starts. Only a presented read leaves something on the port, and nothing is said of what.
Keeping the pending events is the model's (log 21), and so is the free value (log 6, log 7). -/
def Obligations.HardResetIgnoresWhatTheHostPresents : Prop :=
  ∀ (s : State) (presented : Option XactWord),
    ∃ t, perform (.hardReset presented) s = .next t ∧
      t = { State.reset with w := t.w, rdata := t.rdata, events := s.events, draws := t.draws } ∧
      (t.rdata = s.rdata ∨ ∃ x, presented = some x ∧ x.getLsbD 67 = false)

/-! ### Port reads and writes -/

/-- REGRD (R91): the read completes in every state, returns the register's current value, and changes nothing
but the port's output. STATUS and CTRL are spelled out by the weight of their bits (R25, R26). -/
def Obligations.RegisterReadReturnsTheCurrentValue : Prop :=
  ∀ (reg : PortReg) (data : Word) (s : State),
    ∃ v : Word, exec (.regrd reg data) s = .next { s with rdata := some v } ∧
      (reg = .id → v = 0x4D4F444152490001#64) ∧
      (reg = .ctrl → v.toNat = s.ctrlIe.toNat) ∧
      (reg = .status →
        v.toNat = s.status.busy.toNat + 2 * s.status.done.toNat + 4 * s.status.err.toNat +
          8 * s.status.ovr.toNat + 16 * s.status.prime.toNat + 32 * s.status.noinv.toNat +
          256 * (match s.status.errcode with | .none => 0 | .illegalCmd => 1 | .modZero => 2)) ∧
      (reg = .cmd → v = s.lastCmd) ∧ (reg = .opa → v = s.opa) ∧ (reg = .opb → v = s.opb) ∧
      (reg = .opm → v = s.opm) ∧ (reg = .result → v = s.result)

/-- R56: a read changes no state, and repeating it without an intervening event returns the same value. -/
def Obligations.ReadsHaveNoSideEffects : Prop :=
  ∀ (reg : PortReg) (d d' : Word) (s t : State), exec (.regrd reg d) s = .next t →
    { t with rdata := s.rdata } = s ∧ exec (.regrd reg d') t = .next t

/-- R93: an operand write stores all 64 bits, BUSY or not, and nothing else changes; in particular a running
command keeps its latched values. -/
def Obligations.OperandWriteStoresAndNothingElse : Prop :=
  ∀ (v : Word) (s : State),
    exec (.regwr .opa v) s = .next { s with opa := v } ∧
    exec (.regwr .opb v) s = .next { s with opb := v } ∧
    exec (.regwr .opm v) s = .next { s with opm := v }

/-- R100: writes to ID and RESULT complete and have no effect. -/
def Obligations.WritesToIdAndResultAreIgnored : Prop :=
  ∀ (v : Word) (s : State),
    exec (.regwr .id v) s = .next s ∧ exec (.regwr .result v) s = .next s

/-- The StatusWrite of R98, by the weight of the bits of v: bit 1 clears DONE, bit 2 clears ERR and ERRCODE
together, bit 3 clears OVR, no other bit does anything, and nothing else changes. -/
def Obligations.StatusWriteClearsDoneErrOvrOnly : Prop :=
  ∀ (v : Word) (s : State),
    ∃ t, exec (.regwr .status v) s = .next t ∧ t = { s with status := t.status } ∧
      t.status = { s.status with
        done := t.status.done, err := t.status.err, errcode := t.status.errcode, ovr := t.status.ovr } ∧
      (v.toNat / 2 % 2 = 1 → t.status.done = false) ∧
      (v.toNat / 2 % 2 = 0 → t.status.done = s.status.done) ∧
      (v.toNat / 4 % 2 = 1 → t.status.err = false ∧ t.status.errcode = .none) ∧
      (v.toNat / 4 % 2 = 0 → t.status.err = s.status.err ∧ t.status.errcode = s.status.errcode) ∧
      (v.toNat / 8 % 2 = 1 → t.status.ovr = false) ∧
      (v.toNat / 8 % 2 = 0 → t.status.ovr = s.status.ovr)

/-- The CtrlWrite of R99 without a reset: with bit 1 of v clear, IE becomes bit 0, bits 63:2 are ignored, and
nothing else changes. -/
def Obligations.ControlWriteSetsInterruptEnable : Prop :=
  ∀ (v : Word) (s : State), v.toNat / 2 % 2 = 0 →
    exec (.regwr .ctrl v) s = .next { s with ctrlIe := v.toNat % 2 == 1 }

/-- R194: an operand written by one transaction is read by the very next. -/
def Obligations.OperandWriteIsSeenByTheNextRead : Prop :=
  ∀ (reg : PortReg) (v : Word) (wr rd : XactWord) (rest : List Event) (s : State),
    reg = .opa ∨ reg = .opb ∨ reg = .opm →
    decodeXact wr = .ok (.regwr reg v) → decodeXact rd = .ok (.regrd reg 0#64) →
    s.events = .xact wr :: .xact rd :: rest →
    ∃ t, Sys2Proof.core.run 2 s = .next t ∧ t.rdata = some v

/-- R53: an aligned 8-byte access at BASE + 8·idx is the transaction on register idx, byte j of a load's answer
and of a store holding bits 8j+7:8j of the value. The model takes this recommended layout (log 16). -/
def Obligations.AdapterReachesTheRegisterAtItsAddress : Prop :=
  ∀ (reg : PortReg) (v : Word) (s : State),
    let addr := Config.base + 8 * (indexOf reg).toNat
    (∃ (t : State) (read : List Byte),
      perform (.bus (.load addr 8)) s = .next t ∧ exec (.regrd reg 0#64) s = .next t ∧
      busRdata t = some read ∧ read.length = 8 ∧
      ∀ (j : Nat) (b : Byte), read[j]? = some b → b.toNat = (portRead reg s).toNat / 2 ^ (8 * j) % 256) ∧
    ∀ bytes : List Byte, bytes.length = 8 →
      (∀ (j : Nat) (b : Byte), bytes[j]? = some b → b.toNat = v.toNat / 2 ^ (8 * j) % 256) →
      perform (.bus (.store addr bytes)) s = exec (.regwr reg v) s

/-- R54: an access through the adapter that is not an aligned 8-byte one, or not of the block's 64 bytes,
is refused. Refusing the addresses of no register is the model's (log 16). -/
def Obligations.AdapterRefusesAccessesOutsideTheInterface : Prop :=
  ∀ (addr size : Nat) (bytes : List Byte) (s : State),
    (Config.base ≤ addr → addr < Config.base + 64 → addr % 8 ≠ 0 ∨ size ≠ 8 →
      perform (.bus (.load addr size)) s = .refused .notAlignedDoubleword) ∧
    (Config.base ≤ addr → addr < Config.base + 64 → addr % 8 ≠ 0 ∨ bytes.length ≠ 8 →
      perform (.bus (.store addr bytes)) s = .refused .notAlignedDoubleword) ∧
    (addr < Config.base ∨ Config.base + 64 ≤ addr →
      perform (.bus (.load addr size)) s = .refused .outsideWindow ∧
      perform (.bus (.store addr bytes)) s = .refused .outsideWindow)

/-! ### The command write -/

/-- R79: a bare command is the write of its word, OPC with RSV = 0, to CMD. -/
def Obligations.BareCommandIsAWriteOfItsOpcode : Prop :=
  ∀ s : State,
    exec .madd s = exec (.regwr .cmd 0x1#64) s ∧ exec .msub s = exec (.regwr .cmd 0x2#64) s ∧
    exec .mmul s = exec (.regwr .cmd 0x3#64) s ∧ exec .mpow s = exec (.regwr .cmd 0x4#64) s ∧
    exec .mrtest s = exec (.regwr .cmd 0x5#64) s ∧ exec .minv s = exec (.regwr .cmd 0x6#64) s

/-- R164: a command write while BUSY = 1 is dropped. It sets OVR and changes nothing else, whatever the word. -/
def Obligations.BusyCommandWriteSetsOverrunOnly : Prop :=
  ∀ (i : Instr) (v : Word) (s : State), commandOf i = some v → s.status.busy = true →
    exec i s = .next { s with status := { s.status with ovr := true } }

/-- The event of a bare command word is the write of that word to CMD, legal or not. For the six commands R79
says so; for every other word it is the model's choice (log 14). -/
def Obligations.BareWordEventIsAWriteToCmd : Prop :=
  ∀ (v : Word) (s : State), perform (.cmd v) s = exec (.regwr .cmd v) s

/-- R163 (with R74, R75 and the effect of R161): with BUSY = 0, a word with v[63:4] ≠ 0 or v[3:0] in
{0x0, 0x7..0xF} ends with ILLEGAL_CMD; OPM is not examined. -/
def Obligations.IllegalCommandWordRaisesIllegalCmd : Prop :=
  ∀ (v : Word) (s : State), s.status.busy = false →
    v.toNat / 16 ≠ 0 ∨ v.toNat % 16 = 0 ∨ 7 ≤ v.toNat % 16 →
    exec (.regwr .cmd v) s = .next { s with
      lastCmd := v
      status := { s.status with
        err := true, errcode := .illegalCmd, done := true, prime := false, noinv := false } }

/-- R162 (with the effect of R161): with BUSY = 0 and OPM = 0, the five modulus commands end with MOD_ZERO,
and MRTEST is accepted. -/
def Obligations.ModulusZeroRaisesModZero : Prop :=
  ∀ (i : Instr) (v : Word) (s : State), commandOf i = some v → s.status.busy = false → s.opm = 0#64 →
    (v = 1#64 ∨ v = 2#64 ∨ v = 3#64 ∨ v = 4#64 ∨ v = 6#64 →
      exec i s = .next { s with
        lastCmd := v
        status := { s.status with
          err := true, errcode := .modZero, done := true, prime := false, noinv := false } }) ∧
    (v = 5#64 → ∃ t, exec i s = .next t ∧ t.status.err = false ∧ t.status.busy = true)

/-- R95: an accepted command latches its opcode and OPA, OPB and OPM, sets BUSY and RUN, clears DONE, ERR,
ERRCODE, PRIME and NOINV, records the word in LASTCMD (R94), and leaves OVR and everything else. -/
def Obligations.AcceptanceLatchesOperandsAndStarts : Prop :=
  ∀ (i : Instr) (v : Word) (c : Command) (s : State),
    commandOf i = some v → decodeCommand v = .ok c → s.status.busy = false →
    c = .mrtest ∨ s.opm ≠ 0#64 →
    ∃ t, exec i s = .next t ∧ holdsCommand c s.opa s.opb s.opm t ∧
      t = { s with
        lastCmd := v
        seq := t.seq
        w := t.w
        status :=
          { busy := true, done := false, err := false, ovr := s.status.ovr, prime := false
            noinv := false, errcode := .none } }

/-- The working registers an acceptance initialises, by the first lines of the reference sequences of R130,
R132, R141 (past the guard of R140) and R151. The positions are the model's (log 8). -/
def Obligations.AcceptanceInitialisesWorkingRegisters : Prop :=
  ∀ (c : Command) (s t : State), s.status.busy = false → c = .mrtest ∨ s.opm ≠ 0#64 →
    exec (Instr.ofCommand c) s = .next t →
    (c = .mmul → t.seq = .run .loop ∧ t.w.acc.toNat = 0 ∧
      t.w.base.toNat = s.opa.toNat % s.opm.toNat ∧ t.w.e = s.opb) ∧
    (c = .mpow → t.seq = .run .loop ∧ t.w.acc.toNat = 1 % s.opm.toNat ∧
      t.w.base.toNat = s.opa.toNat % s.opm.toNat ∧ t.w.e = s.opb) ∧
    (c = .mrtest → s.opa.toNat = 2 ∨ (3 ≤ s.opa.toNat ∧ s.opa.toNat % 2 = 1) →
      t.seq = .run .halve ∧ t.w.q.toNat = s.opa.toNat - 1 ∧ t.w.k.toNat = 0) ∧
    (c = .mrtest → s.opa.toNat < 2 ∨ (4 ≤ s.opa.toNat ∧ s.opa.toNat % 2 = 0) →
      t.seq = .run (.declared false)) ∧
    (c = .minv → t.seq = .run .loop ∧ t.w.d0 = s.opm ∧ t.w.x0.toNat = 0 ∧
      t.w.d1.toNat = s.opa.toNat % s.opm.toNat ∧ t.w.x1.toNat = 1 % s.opm.toNat)

/-! ### The commands, from their write to their completion

Each says that the command is accepted, and that whenever the engine still holds it (after whatever events,
R97) its completion writes the exact result and otherwise only BUSY, DONE and the sequencer (R96). -/

/-- MADD (R120, R121): RESULT is (a + b) mod m. -/
def Obligations.MaddDeliversTheModularSum : Prop :=
  ∀ s : State, s.status.busy = false → s.opm ≠ 0#64 →
    ∃ t, exec .madd s = .next t ∧ holdsCommand .madd s.opa s.opb s.opm t ∧ t.result = s.result ∧
      ∀ u, holdsCommand .madd s.opa s.opb s.opm u →
        ∃ v, perform .complete u = .next v ∧
          v.result.toNat = (s.opa.toNat + s.opb.toNat) % s.opm.toNat ∧
          v = { u with
            result := v.result, seq := .idle, status := { u.status with busy := false, done := true } }

/-- MSUB (R122, R123): RESULT is (a - b) mod m, as a value in 0 .. m-1, never a wrapped difference. -/
def Obligations.MsubDeliversTheModularDifference : Prop :=
  ∀ s : State, s.status.busy = false → s.opm ≠ 0#64 →
    ∃ t, exec .msub s = .next t ∧ holdsCommand .msub s.opa s.opb s.opm t ∧ t.result = s.result ∧
      ∀ u, holdsCommand .msub s.opa s.opb s.opm u →
        ∃ v, perform .complete u = .next v ∧
          (v.result.toNat : Int) = ((s.opa.toNat : Int) - (s.opb.toNat : Int)) % (s.opm.toNat : Int) ∧
          v = { u with
            result := v.result, seq := .idle, status := { u.status with busy := false, done := true } }

/-- MMUL (R130, R131): RESULT is (a · b) mod m, of the full product. -/
def Obligations.MmulDeliversTheModularProduct : Prop :=
  ∀ s : State, s.status.busy = false → s.opm ≠ 0#64 →
    ∃ t, exec .mmul s = .next t ∧ holdsCommand .mmul s.opa s.opb s.opm t ∧ t.result = s.result ∧
      ∀ u, holdsCommand .mmul s.opa s.opb s.opm u →
        ∃ v, perform .complete u = .next v ∧
          v.result.toNat = (s.opa.toNat * s.opb.toNat) % s.opm.toNat ∧
          v = { u with
            result := v.result, seq := .idle, status := { u.status with busy := false, done := true } }

/-- MPOW (R132, R133): RESULT is a^b mod m, with a^0 = 1 (so 1 mod m). -/
def Obligations.MpowDeliversTheModularPower : Prop :=
  ∀ s : State, s.status.busy = false → s.opm ≠ 0#64 →
    ∃ t, exec .mpow s = .next t ∧ holdsCommand .mpow s.opa s.opb s.opm t ∧ t.result = s.result ∧
      ∀ u, holdsCommand .mpow s.opa s.opb s.opm u →
        ∃ v, perform .complete u = .next v ∧
          v.result.toNat = (s.opa.toNat ^ s.opb.toNat) % s.opm.toNat ∧
          v = { u with
            result := v.result, seq := .idle, status := { u.status with busy := false, done := true } }

/-- MRTEST (R140-R143), in every state with BUSY = 0, OPM = 0 included: RESULT is 1 exactly when n passes the
guard and either is a witness or is a strong probable prime to every witness (n - 1 = q·2^k with q odd, and
a^q = 1 or a^(q·2^r) = n - 1 mod n for some r < k), else 0; PRIME says the same. -/
def Obligations.MrtestDeliversTheStrongProbablePrimeVerdict : Prop :=
  ∀ s : State, s.status.busy = false →
    ∃ t, exec .mrtest s = .next t ∧ holdsCommand .mrtest s.opa s.opb s.opm t ∧ t.result = s.result ∧
      ∀ u, holdsCommand .mrtest s.opa s.opb s.opm u →
        ∃ v, perform .complete u = .next v ∧
          (v.result = 1#64 ↔
            (s.opa.toNat = 2 ∨ (3 ≤ s.opa.toNat ∧ s.opa.toNat % 2 = 1)) ∧
            (s.opa.toNat ∈ [2, 3, 5, 7, 11, 13, 17, 19, 23, 29, 31, 37] ∨
              ∀ q k : Nat, q % 2 = 1 → s.opa.toNat - 1 = q * 2 ^ k →
                ∀ a ∈ [2, 3, 5, 7, 11, 13, 17, 19, 23, 29, 31, 37],
                  a ^ q % s.opa.toNat = 1 ∨
                  ∃ r < k, a ^ (q * 2 ^ r) % s.opa.toNat = s.opa.toNat - 1)) ∧
          (v.result ≠ 1#64 → v.result = 0#64) ∧
          v = { u with
            result := v.result, seq := .idle
            status := { u.status with busy := false, done := true, prime := v.result == 1#64 } }

/-- MINV (R150, R152): with m ≥ 2 and gcd(a, m) = 1, RESULT is the x in 1 .. m-1 with a·x = 1 mod m and
NOINV = 0; otherwise, m = 1 included, RESULT = 0 and NOINV = 1. No inverse is not an error: ERR and ERRCODE
stay (R166). -/
def Obligations.MinvDeliversTheInverseOrItsAbsence : Prop :=
  ∀ s : State, s.status.busy = false → s.opm ≠ 0#64 →
    ∃ t, exec .minv s = .next t ∧ holdsCommand .minv s.opa s.opb s.opm t ∧ t.result = s.result ∧
      ∀ u, holdsCommand .minv s.opa s.opb s.opm u →
        ∃ v, perform .complete u = .next v ∧
          (2 ≤ s.opm.toNat → Nat.gcd s.opa.toNat s.opm.toNat = 1 →
            1 ≤ v.result.toNat ∧ v.result.toNat < s.opm.toNat ∧
            (s.opa.toNat * v.result.toNat) % s.opm.toNat = 1 ∧ v.status.noinv = false) ∧
          (¬ (2 ≤ s.opm.toNat ∧ Nat.gcd s.opa.toNat s.opm.toNat = 1) →
            v.result = 0#64 ∧ v.status.noinv = true) ∧
          v = { u with
            result := v.result, seq := .idle
            status := { u.status with busy := false, done := true, noinv := v.status.noinv } }

/-- R150: INV(a, m) is the unique x in 1 .. m-1 with (a · x) mod m = 1 where m ≥ 2 and gcd(a mod m, m) = 1,
and 0 otherwise, for every 64-bit a and every m from 1 to 2^64-1. -/
def Obligations.InverseIsTheUniqueResidueOrZero : Prop :=
  ∀ a m : Nat, a < 2 ^ 64 → 1 ≤ m → m < 2 ^ 64 →
    (2 ≤ m ∧ Nat.gcd (a % m) m = 1 →
      ∀ x : Nat, x = modInv a m ↔ (1 ≤ x ∧ x ≤ m - 1 ∧ (a * x) % m = 1)) ∧
    (¬ (2 ≤ m ∧ Nat.gcd (a % m) m = 1) → modInv a m = 0)

/-- Half of the correctness claim of R144: a prime is never declared composite. (The other half is the
published bound on twelve witnesses, which the model does not rest on: log 12.) -/
def Obligations.EveryPrimePassesTheTest : Prop :=
  ∀ n : Nat, n < 2 ^ 64 → n.Prime → millerRabin n = true

/-- R45: every completion of a modulus command leaves RESULT < m, an MRTEST leaves 0 or 1, and the exact
result of the datapath function is not truncated. -/
def Obligations.ResultsStayBelowTheModulus : Prop :=
  ∀ u v : State, running u = true → perform .complete u = .next v →
    (u.w.op ≠ opcodeOf .mrtest → v.result.toNat < u.w.m.toNat) ∧
    (u.w.op = opcodeOf .mrtest → v.result = 0#64 ∨ v.result = 1#64) ∧
    (u.w.op = opcodeOf .madd → v.result.toNat = modAdd u.w.a.toNat u.w.b.toNat u.w.m.toNat) ∧
    (u.w.op = opcodeOf .msub → v.result.toNat = modSub u.w.a.toNat u.w.b.toNat u.w.m.toNat) ∧
    (u.w.op = opcodeOf .mmul → v.result.toNat = modMul u.w.a.toNat u.w.b.toNat u.w.m.toNat) ∧
    (u.w.op = opcodeOf .mpow → v.result.toNat = modPow u.w.a.toNat u.w.b.toNat u.w.m.toNat) ∧
    (u.w.op = opcodeOf .minv → v.result.toNat = modInv u.w.a.toNat u.w.m.toNat)

/-! ### Whole-machine rules -/

/-- The invariant holds at reset. -/
def Obligations.InvariantHoldsAtReset : Prop := Inv State.reset ∧ onSequence State.reset

/-- R44 (with R41): from every state that meets the invariant, a step gives a state that meets it: BUSY is 1
exactly in RUN; BUSY = 1 implies DONE, ERR, ERRCODE, PRIME and NOINV are 0; ERR and ERRCODE agree; PRIME = 1
implies RESULT = 1; NOINV = 1 implies RESULT = 0; never both. -/
def Obligations.StepKeepsTheInvariant : Prop :=
  ∀ s t : State, Inv s → step s = .next t → Inv t

/-- R41: in RUN the working registers hold a state of the running command's reference sequence, and every
step keeps it so. One iteration for one event is the model's choice (log 8). -/
def Obligations.StepKeepsTheReferenceSequence : Prop :=
  ∀ s t : State, onSequence s → step s = .next t → onSequence t

/-- No step faults from a state that meets the invariant: no modulus of 0 reaches the datapath (U2 of 93).
The fault is the model's (log 11). -/
def Obligations.NoFaultFromTheInvariant : Prop :=
  ∀ (s : State) (r : Fault), Inv s → step s ≠ .fault r

/-- The only step that is refused is an access through the adapter that is no aligned 8-byte access of the
block (R54): every transaction and every command word runs. The refusals are the model's (log 16). -/
def Obligations.OnlyAccessesOutsideTheInterfaceAreRefused : Prop :=
  ∀ (s : State) (r : Refusal), step s = .refused r →
    ∃ (access : BusAccess) (rest : List Event),
      s.events = .bus access :: rest ∧ busTransaction access = .error r ∧
      (r = .outsideWindow ∨ r = .notAlignedDoubleword)

/-- R42: the reference sequence of a command, run iteration by iteration from the acceptance's initial values,
ends, and what its registers then hold gives the RESULT and the flag that the completion computes at once:
W.ACC for MMUL and MPOW, the verdict for MRTEST, W.X1 or its absence for MINV, and for MADD and MSUB, which have
no running value (R40), the one operation on the latched operands. One iteration for one event is the model's
choice (log 8). -/
def Obligations.ReferenceSequenceAgreesWithCompletion : Prop :=
  ∀ (s : State) (c : Command), s.w.op = opcodeOf c → c = .mrtest ∨ s.w.m ≠ 0#64 →
    ∃ (k : Nat) (pos : Position) (w : Working) (v : State),
      advanceN k (initialise c s.w) = (pos, w) ∧ complete s = .next v ∧
      match c with
      | .madd => pos = .finished ∧ v.result.toNat = modAdd w.a.toNat w.b.toNat w.m.toNat
      | .msub => pos = .finished ∧ v.result.toNat = modSub w.a.toNat w.b.toNat w.m.toNat
      | .mmul | .mpow => pos = .finished ∧ v.result = w.acc
      | .mrtest =>
        pos = .declared v.status.prime ∧ v.result = (if v.status.prime then 1#64 else 0#64)
      | .minv =>
        pos = .finished ∧ v.result = (if w.d1 = 1#64 then w.x1 else 0#64) ∧
          (v.status.noinv = true ↔ w.d1 ≠ 1#64)

/-- R42 and R64: whatever host transactions, in whichever spelling, and engine iterations fall between an
acceptance and its completion, short of a reset, every one of them runs, and the completion writes what it would
have written at once. (Commands written meanwhile are dropped, operands written meanwhile are not seen.) An
access through the adapter may stand between where it is a transaction at all. Completions as events are the
model's (log 2), and so are one iteration for one event (log 8) and the event of a bare command word (log 14). -/
def Obligations.PlacementOfCompletionNeverChangesTheResult : Prop :=
  ∀ (s t now : State) (c : Command) (between rest : List Event),
    Inv s → s.status.busy = false → c = .mrtest ∨ s.opm ≠ 0#64 →
    exec (Instr.ofCommand c) s = .next t → perform .complete t = .next now →
    (∀ ev ∈ between, ev ≠ .complete ∧ resets ev = false ∧
      ∀ access, ev = .bus access → ∃ i, busTransaction access = .ok i) →
    ∃ later, Sys2Proof.core.run (between.length + 1)
        { t with events := between ++ .complete :: rest } = .next later ∧
      later.result = now.result ∧ later.status.prime = now.status.prime ∧
      later.status.noinv = now.status.noinv ∧ later.status.busy = false ∧ running later = false

/-- R97 (weak fairness) and R104: from a state that meets the invariant, with every adapter access among the
events a transaction of the block, the events run out in as many steps and at most one more step leaves the run
over. That the model completes a running command once the events have run out is its form of that fairness
(log 2). -/
def Obligations.EveryRunEndsIdle : Prop :=
  ∀ s : State, Inv s →
    (∀ access, Event.bus access ∈ s.events → ∃ i, busTransaction access = .ok i) →
    ∃ t, Sys2Proof.core.run (s.events.length + 1) s = .next t ∧ runOver t = true

/-- R80: a `wait` ends at the first read of STATUS that returns BUSY = 0, and then the block is IDLE, whatever
the engine and the environment do meanwhile. The event list is the model's (log 1), and so are leaving the
number of reads to it and not counting a read presented during a hard reset (log 20). -/
def Obligations.WaitEndsWithTheBlockIdle : Prop :=
  ∀ s : State, Inv s → followsScript s.events [.wait] s = true →
    ∃ (t : State) (v : Word), Sys2Proof.core.run s.events.length s = .next t ∧ t.rdata = some v ∧
      v.toNat % 2 = 0 ∧ running t = false

/-- R80: the call form of a command, given while BUSY = 0 and followed in whatever order the engine's events
allow, ends with a read of RESULT that returns that command's result on the given operands. The event list is
the model's (log 1, log 20). -/
def Obligations.CallFormReadsTheCommandsResult : Prop :=
  ∀ (s : State) (c : Command) (a b m : Word), Inv s → s.status.busy = false → c = .mrtest ∨ m ≠ 0#64 →
    followsScript s.events (callForm c a b m) s = true → (∀ ev ∈ s.events, resets ev = false) →
    ∃ (t : State) (v : Word), Sys2Proof.core.run s.events.length s = .next t ∧ t.rdata = some v ∧
      (c = .madd → v.toNat = (a.toNat + b.toNat) % m.toNat) ∧
      (c = .msub → (v.toNat : Int) = ((a.toNat : Int) - (b.toNat : Int)) % (m.toNat : Int)) ∧
      (c = .mmul → v.toNat = (a.toNat * b.toNat) % m.toNat) ∧
      (c = .mpow → v.toNat = (a.toNat ^ b.toNat) % m.toNat) ∧
      (c = .mrtest → v.toNat = (millerRabin a.toNat).toNat) ∧
      (c = .minv → v.toNat = modInv a.toNat m.toNat)

/-- R42: the host never observes hidden state. Two states that differ only in the working registers (but for
the running command's opcode and operands) and in the position of the engine answer alike at every event,
so read values, flags and irq are the same now and later. -/
def Obligations.HiddenStateIsNeverObserved : Prop :=
  ∀ s t s' t' : State, Inv s → Inv t → looksAlike s t → step s = .next s' → step t = .next t' →
    looksAlike s' t' ∧ s'.rdata = t'.rdata ∧ irq s' = irq t' ∧
    ∀ reg : PortReg, portRead reg s' = portRead reg t'

/-- R24: RESULT changes only at the completion of a running command, or by a reset. -/
def Obligations.ResultChangesOnlyAtCompletionOrReset : Prop :=
  ∀ (ev : Event) (s t : State), perform ev s = .next t → t.result ≠ s.result →
    (ev = .complete ∧ running s = true) ∨ resets ev = true

/-- R21, R22, R23: an operand register changes only by the host's write of that register, which stores the
value read later, or by a reset; the engine never writes it. -/
def Obligations.OperandsChangeOnlyByTheirWriteOrReset : Prop :=
  ∀ (ev : Event) (s t : State), perform ev s = .next t → resets ev = false →
    (t.opa ≠ s.opa → eventInstr ev = some (.regwr .opa t.opa)) ∧
    (t.opb ≠ s.opb → eventInstr ev = some (.regwr .opb t.opb)) ∧
    (t.opm ≠ s.opm → eventInstr ev = some (.regwr .opm t.opm))

/-- R28: LASTCMD is the last word written to CMD while BUSY = 0, accepted or ended by an error; a write while
BUSY = 1, and every other event but a reset, leaves it. -/
def Obligations.LastCommandIsTheLastDecodedWord : Prop :=
  ∀ (ev : Event) (s t : State), perform ev s = .next t → resets ev = false →
    t.lastCmd =
      (match commandWritten ev with
       | some v => if s.status.busy then s.lastCmd else v
       | none => s.lastCmd)

/-- R30: BUSY is set only by a command write while it is 0, and cleared only by a completion or a reset. -/
def Obligations.BusyChangesOnlyByAcceptanceCompletionOrReset : Prop :=
  ∀ (ev : Event) (s t : State), perform ev s = .next t →
    (s.status.busy = false → t.status.busy = true →
      ∃ v c, commandWritten ev = some v ∧ decodeCommand v = .ok c ∧
        holdsCommand c s.opa s.opb s.opm t) ∧
    (s.status.busy = true → t.status.busy = false → ev = .complete ∨ resets ev = true)

/-- R31: DONE is set only by the completion of the running command or by a command write that ends in an
error, and cleared only by a command write that is accepted, a write of STATUS with bit 1 set, or a reset. -/
def Obligations.DoneChangesOnlyByItsRules : Prop :=
  ∀ (ev : Event) (s t : State), perform ev s = .next t →
    (s.status.done = false → t.status.done = true →
      (ev = .complete ∧ running s = true) ∨
      (∃ v, commandWritten ev = some v ∧ s.status.busy = false ∧ t.status.err = true)) ∧
    (s.status.done = true → t.status.done = false →
      (∃ v c, commandWritten ev = some v ∧ decodeCommand v = .ok c ∧ s.status.busy = false ∧
        t.status.busy = true) ∨
      (∃ v, eventInstr ev = some (.regwr .status v) ∧ v.getLsbD 1 = true) ∨ resets ev = true)

/-- R32: ERR and ERRCODE change only by a command write that is decoded, by a write of STATUS with bit 2 set, or
by a reset. A command write that is decoded sets both, with the code of an error, where it ends in an error, and
clears both where it is accepted; the other two clear both. -/
def Obligations.ErrorAndCodeChangeTogether : Prop :=
  ∀ (ev : Event) (s t : State), perform ev s = .next t →
    (t.status.err ≠ s.status.err ∨ t.status.errcode ≠ s.status.errcode →
      (∃ v, commandWritten ev = some v ∧ s.status.busy = false) ∨
      (∃ v, eventInstr ev = some (.regwr .status v) ∧ v.getLsbD 2 = true) ∨ resets ev = true) ∧
    (∀ v, commandWritten ev = some v → s.status.busy = false →
      (t.status.busy = false ∧ t.status.err = true ∧
        (t.status.errcode = .illegalCmd ∨ t.status.errcode = .modZero)) ∨
      (t.status.busy = true ∧ t.status.err = false ∧ t.status.errcode = .none)) ∧
    ((∃ v, eventInstr ev = some (.regwr .status v) ∧ v.getLsbD 2 = true) ∨ resets ev = true →
      t.status.err = false ∧ t.status.errcode = .none)

/-- R33: OVR is set exactly by a command write while BUSY = 1, and cleared only by a write of STATUS with bit 3
set or by a reset; acceptance does not clear it. -/
def Obligations.OverrunIsStickyUntilClearedOrReset : Prop :=
  ∀ (ev : Event) (s t : State), perform ev s = .next t →
    (∀ v, commandWritten ev = some v → s.status.busy = true → t.status.ovr = true) ∧
    (s.status.ovr = false → t.status.ovr = true →
      ∃ v, commandWritten ev = some v ∧ s.status.busy = true) ∧
    (s.status.ovr = true → t.status.ovr = false →
      (∃ v, eventInstr ev = some (.regwr .status v) ∧ v.getLsbD 3 = true) ∨ resets ev = true) ∧
    ((∃ v, eventInstr ev = some (.regwr .status v) ∧ v.getLsbD 3 = true) ∨ resets ev = true →
      t.status.ovr = false)

/-- R34: PRIME is set only by an MRTEST completion, and then equals RESULT[0]; every decoded command (accepted
or ended by an error) and every reset clears it. -/
def Obligations.PrimeIsSetOnlyByMrtest : Prop :=
  ∀ (ev : Event) (s t : State), perform ev s = .next t →
    (s.status.prime = false → t.status.prime = true →
      ev = .complete ∧ running s = true ∧ s.w.op = opcodeOf .mrtest) ∧
    (ev = .complete → running s = true → s.w.op = opcodeOf .mrtest → t.status.prime = t.result.getLsbD 0) ∧
    (∀ v, commandWritten ev = some v → s.status.busy = false →
      t.status.prime = false) ∧
    (resets ev = true → t.status.prime = false)

/-- R35: NOINV is set only by an MINV completion, which sets it to 1 exactly when RESULT = 0; every decoded
command (accepted or ended by an error) and every reset clears it. -/
def Obligations.NoInverseIsSetOnlyByMinv : Prop :=
  ∀ (ev : Event) (s t : State), perform ev s = .next t →
    (s.status.noinv = false → t.status.noinv = true →
      ev = .complete ∧ running s = true ∧ s.w.op = opcodeOf .minv) ∧
    (ev = .complete → running s = true → s.w.op = opcodeOf .minv →
      (t.status.noinv = true ↔ t.result = 0#64)) ∧
    (∀ v, commandWritten ev = some v → s.status.busy = false →
      t.status.noinv = false) ∧
    (resets ev = true → t.status.noinv = false)

/-- R171: IE is changed by no error and no completion, only by a write of CTRL (whose bit 0 it becomes) or by a
reset. -/
def Obligations.InterruptEnableChangesOnlyByControlWriteOrReset : Prop :=
  ∀ (ev : Event) (s t : State), perform ev s = .next t → t.ctrlIe ≠ s.ctrlIe →
    (∃ v : Word, eventInstr ev = some (.regwr .ctrl v) ∧ v.getLsbD 0 = t.ctrlIe) ∨ resets ev = true

/-- R38, R168, in terms of what the port shows: irq is bit 0 of CTRL and (bit 1 or bit 3 of STATUS). -/
def Obligations.InterruptFollowsEnableAndDoneOrOverrun : Prop :=
  ∀ s : State,
    irq s = ((portRead .ctrl s).getLsbD 0 &&
      ((portRead .status s).getLsbD 1 || (portRead .status s).getLsbD 3))

/-- R171: a write of 0xE to STATUS clears DONE, ERR and OVR together and drops irq, leaving IE. -/
def Obligations.ClearingStatusDropsTheInterrupt : Prop :=
  ∀ s : State, ∃ t, exec (.regwr .status 0xE#64) s = .next t ∧
    t.status.done = false ∧ t.status.err = false ∧ t.status.ovr = false ∧ irq t = false ∧
    t.ctrlIe = s.ctrlIe

/-- R199, with R93 and R164: while a command runs, no transaction short of a soft reset touches the sequencer,
the working registers or RESULT, or clears BUSY. -/
def Obligations.RunningCommandIsUntouchedByTransactions : Prop :=
  ∀ (i : Instr) (s : State), s.status.busy = true → softResets i = false →
    ∃ t, exec i s = .next t ∧ t.seq = s.seq ∧ t.w = s.w ∧ t.result = s.result ∧
      t.status.busy = true ∧ t.status.prime = s.status.prime ∧ t.status.noinv = s.status.noinv

/-- R42: an iteration of the engine changes only the sequencer's position and the working registers, and
keeps the latched opcode and operands; no read and no irq can tell. One iteration for one event is the
model's choice (log 8). -/
def Obligations.EngineIterationsAreInvisible : Prop :=
  ∀ s t : State, perform .tick s = .next t →
    t = { s with seq := t.seq, w := t.w } ∧ running t = running s ∧
    t.w.op = s.w.op ∧ t.w.a = s.w.a ∧ t.w.b = s.w.b ∧ t.w.m = s.w.m
end

