-- ==== Sys2Proof/Laws/Datapath.lean ====
section
/-! SUPPORT. What each datapath function computes, for every modulus from 1 up. -/

namespace Sys2Proof.Machine

theorem toWord_toNat {n : Nat} (h : n < 2 ^ 64) : (toWord n).toNat = n := by
  simp only [toWord, BitVec.toNat_ofNat]; exact Nat.mod_eq_of_lt h

/-! ### mod_add and mod_sub -/

theorem modAdd_eq {m : Nat} (a b : Nat) (hm : 0 < m) : modAdd a b m = (a + b) % m := by
  have ha := Nat.mod_lt a hm
  have hb := Nat.mod_lt b hm
  rw [modAdd, Nat.add_mod]
  generalize a % m = a', b % m = b' at *
  split
  · rw [Nat.mod_eq_sub_mod (by omega), Nat.mod_eq_of_lt (by omega)]; omega
  · rw [Nat.mod_eq_of_lt (by omega)]

theorem modSub_eq {m : Nat} (a b : Nat) (hm : 0 < m) :
    (modSub a b m : Int) = ((a : Int) - (b : Int)) % (m : Int) := by
  have ha := Nat.mod_lt a hm
  have hb := Nat.mod_lt b hm
  rw [Int.sub_emod, ← Int.natCast_emod, ← Int.natCast_emod, modSub]
  split
  · rw [← Int.add_emod_right, Int.emod_eq_of_lt (by omega) (by omega)]; omega
  · rw [Int.emod_eq_of_lt (by omega) (by omega)]; omega

theorem modAdd_lt {m : Nat} (a b : Nat) (hm : 0 < m) : modAdd a b m < m := by
  rw [modAdd_eq a b hm]; exact Nat.mod_lt _ hm

theorem modSub_lt {m : Nat} (a b : Nat) (hm : 0 < m) : modSub a b m < m := by
  have ha := Nat.mod_lt a hm
  have hb := Nat.mod_lt b hm
  rw [modSub]; split <;> omega

/-! ### mod_mul -/

/-- `mod_mul`'s loop adds base·e to the accumulator. -/
theorem mulLoop_eq {m : Nat} (hm : 0 < m) (fuel : Nat) (s : Scan) (he : s.e < 2 ^ fuel)
    (ha : s.acc < m) : mulLoop m fuel s = (s.acc + s.base * s.e) % m := by
  induction fuel generalizing s with
  | zero =>
    have : s.e = 0 := by omega
    simp [mulLoop, this, Nat.mod_eq_of_lt ha]
  | succ fuel ih =>
    rw [mulLoop]
    split
    · rename_i h0; simp [h0, Nat.mod_eq_of_lt ha]
    · rw [ih (mulIter m s) (by simp only [mulIter]; omega)
        (by simp only [mulIter]; split <;> [exact modAdd_lt _ _ hm; exact ha])]
      have h2 := Nat.div_add_mod s.e 2
      rcases Nat.mod_two_eq_zero_or_one s.e with h | h
      · simp only [mulIter, h, modAdd_eq _ _ hm]
        rw [if_neg (by omega), Nat.add_mod, Nat.mod_mul_mod, ← Nat.add_mod]
        congr 1
        have h3 : s.base * s.e = s.base * (2 * (s.e / 2)) := by congr 1; omega
        rw [h3]; ring
      · simp only [mulIter, h, modAdd_eq _ _ hm, if_true]
        rw [Nat.mod_add_mod, Nat.add_mod, Nat.mod_mul_mod, ← Nat.add_mod]
        congr 1
        have h3 : s.base * s.e = s.base * (2 * (s.e / 2) + 1) := by rw [← h]; congr 1; omega
        rw [h3]; ring

theorem modMul_eq {m b : Nat} (a : Nat) (hm : 0 < m) (hb : b < 2 ^ 64) :
    modMul a b m = (a * b) % m := by
  rw [modMul, mulLoop_eq hm 64 _ hb hm]; simp [Nat.mod_mul_mod]

theorem modMul_lt {m b : Nat} (a : Nat) (hm : 0 < m) (hb : b < 2 ^ 64) : modMul a b m < m := by
  rw [modMul_eq a hm hb]; exact Nat.mod_lt _ hm

/-! ### mod_pow -/

/-- `mod_pow`'s loop multiplies the accumulator by base^e. -/
theorem powLoop_eq {m : Nat} (hm : 0 < m) (hm' : m ≤ 2 ^ 64) (fuel : Nat) (s : Scan)
    (he : s.e < 2 ^ fuel) (ha : s.acc < m) (hb : s.base < m) :
    powLoop m fuel s = (s.acc * s.base ^ s.e) % m := by
  induction fuel generalizing s with
  | zero =>
    have : s.e = 0 := by omega
    simp [powLoop, this, Nat.mod_eq_of_lt ha]
  | succ fuel ih =>
    rw [powLoop]
    split
    · rename_i h0; simp [h0, Nat.mod_eq_of_lt ha]
    · have hb64 : s.base < 2 ^ 64 := by omega
      rw [ih (powIter m s) (by simp only [powIter]; omega)
        (by simp only [powIter]; split <;> [exact modMul_lt _ hm hb64; exact ha])
        (by simp only [powIter]; exact modMul_lt _ hm hb64)]
      have h2 := Nat.div_add_mod s.e 2
      have hsq : ∀ n : Nat, (s.base * s.base % m) ^ n % m = s.base ^ (2 * n) % m := by
        intro n; rw [← Nat.pow_mod, pow_mul, pow_two]
      rcases Nat.mod_two_eq_zero_or_one s.e with h | h
      · simp only [powIter, h, modMul_eq _ hm hb64]
        rw [if_neg (by omega), Nat.mul_mod, hsq, ← Nat.mul_mod]
        congr 3; omega
      · simp only [powIter, h, modMul_eq _ hm hb64, if_true]
        rw [Nat.mod_mul_mod, Nat.mul_mod, hsq, ← Nat.mul_mod]
        congr 1
        have h3 : s.base ^ s.e = s.base ^ (2 * (s.e / 2) + 1) := by congr 1; omega
        rw [h3, pow_succ]; ring

theorem modPow_eq {m b : Nat} (a : Nat) (hm : 0 < m) (hm' : m ≤ 2 ^ 64) (hb : b < 2 ^ 64) :
    modPow a b m = (a ^ b) % m := by
  rw [modPow, powLoop_eq hm hm' 64 _ hb (Nat.mod_lt _ hm) (Nat.mod_lt _ hm), Nat.mod_mul_mod, one_mul,
    ← Nat.pow_mod]

theorem modPow_lt {m b : Nat} (a : Nat) (hm : 0 < m) (hm' : m ≤ 2 ^ 64) (hb : b < 2 ^ 64) :
    modPow a b m < m := by
  rw [modPow_eq a hm hm' hb]; exact Nat.mod_lt _ hm

end Sys2Proof.Machine
end

