-- ==== Sys2Proof/Laws/Decode.lean ====
section
/-! SUPPORT. The small facts about words, bytes and the encoding tables. -/

namespace Sys2Proof

/-! ### Bytes -/

@[simp] theorem bytesLE_length (n w : Nat) : (bytesLE n w).length = n := by
  induction n generalizing w with
  | zero => rfl
  | succ n ih => simp [bytesLE, ih]

theorem ofBytesLE_lt (bs : List Byte) : ofBytesLE bs < 2 ^ (8 * bs.length) := by
  induction bs with
  | nil => simp [ofBytesLE]
  | cons b bs ih =>
    have hb : b.toNat < 256 := b.isLt
    have hp : 2 ^ (8 * (bs.length + 1)) = 256 * 2 ^ (8 * bs.length) := by
      rw [Nat.mul_add, Nat.pow_add]; omega
    simp only [ofBytesLE, List.length_cons, hp]
    omega

theorem ofBytesLE_bytesLE (n w : Nat) (h : w < 2 ^ (8 * n)) : ofBytesLE (bytesLE n w) = w := by
  induction n generalizing w with
  | zero => simp [bytesLE, ofBytesLE] at *; omega
  | succ n ih =>
    have hp : 2 ^ (8 * (n + 1)) = 256 * 2 ^ (8 * n) := by
      rw [Nat.mul_add, Nat.pow_add]; omega
    rw [hp] at h
    simp only [bytesLE, ofBytesLE, ih (w / 256) (by omega), BitVec.toNat_ofNat]
    omega

theorem bytesLE_ofBytesLE (bs : List Byte) : bytesLE bs.length (ofBytesLE bs) = bs := by
  induction bs with
  | nil => rfl
  | cons b bs ih =>
    have hb : b.toNat < 256 := b.isLt
    have h1 : (b.toNat + 256 * ofBytesLE bs) / 256 = ofBytesLE bs := by omega
    simp only [List.length_cons, bytesLE, ofBytesLE, h1, ih]
    congr 1
    apply BitVec.eq_of_toNat_eq
    simp only [BitVec.toNat_ofNat]
    omega

/-! ### Registers and commands -/

@[simp] theorem regOfIndex_indexOf (reg : PortReg) : regOfIndex (indexOf reg) = reg := by
  cases reg <;> rfl

@[simp] theorem indexOf_regOfIndex (idx : BitVec 3) : indexOf (regOfIndex idx) = idx := by
  revert idx; decide

@[simp] theorem commandOfOpcode_opcodeOf (c : Command) : commandOfOpcode (opcodeOf c) = some c := by
  cases c <;> rfl

/-- The six opcodes are the only ones of a command (R72). -/
theorem opcodeOf_of_commandOfOpcode {o : BitVec 4} {c : Command} (h : commandOfOpcode o = some c) :
    o = opcodeOf c := by
  revert h; cases c <;> revert o <;> decide

@[simp] theorem opcodeOf_inj {c d : Command} : opcodeOf c = opcodeOf d ↔ c = d := by
  cases c <;> cases d <;> decide

@[simp] theorem decodeCommand_commandWord (c : Command) : decodeCommand (commandWord c) = .ok c := by
  cases c <;> rfl

/-- A legal command word is the encoding of its command. -/
theorem commandWord_of_decodeCommand {v : Word} {c : Command} (h : decodeCommand v = .ok c) :
    v = commandWord c := by
  have hv : v = rsvField v ++ opcField v := by
    apply BitVec.eq_of_getLsbD_eq
    intro i hi
    simp only [rsvField, opcField, BitVec.getLsbD_append, BitVec.getLsbD_extractLsb']
    by_cases h4 : i < 4
    · simp [h4]
    · have : i - 4 < 60 := by omega
      have h5 : 4 + (i - 4) = i := by omega
      simp [h4, this, h5]
  unfold decodeCommand at h
  split at h
  · rename_i h0
    rw [hv, h0]
    generalize opcField v = o at h
    cases hc : commandOfOpcode o with
    | none => simp [hc] at h
    | some d =>
      simp only [hc, Except.ok.injEq] at h
      subst h
      rw [opcodeOf_of_commandOfOpcode hc]; rfl
  · cases h

/-- The command decoder by number: a word is legal exactly when it is 1 to 6. -/
theorem decodeCommand_error_iff (v : Word) :
    (∃ e, decodeCommand v = .error e) ↔ (v.toNat = 0 ∨ 7 ≤ v.toNat) := by
  constructor
  · rintro ⟨e, he⟩
    by_contra hc
    have : v = 1#64 ∨ v = 2#64 ∨ v = 3#64 ∨ v = 4#64 ∨ v = 5#64 ∨ v = 6#64 := by
      simp only [BitVec.toNat_eq, BitVec.toNat_ofNat]; omega
    rcases this with rfl | rfl | rfl | rfl | rfl | rfl <;> cases he
  · intro h
    cases hd : decodeCommand v with
    | error e => exact ⟨e, rfl⟩
    | ok c =>
      have := commandWord_of_decodeCommand hd
      subst this
      cases c <;> simp [commandWord, opcodeOf] at h

/-! ### Transaction words -/

theorem xactWord_toNat (we : Bool) (reg : PortReg) (v : Word) :
    (xactWord we reg v).toNat =
      (if we then 2 ^ 67 else 0) + (indexOf reg).toNat * 2 ^ 64 + v.toNat := by
  have hv : v.toNat < 2 ^ 64 := v.isLt
  have hi : (indexOf reg).toNat < 8 := (indexOf reg).isLt
  have h1 : (xactWord we reg v).toNat = ((BitVec.ofBool we).toNat <<< 3 ||| (indexOf reg).toNat) <<< 64 ||| v.toNat := by
    simp only [xactWord, BitVec.toNat_append]
  rw [h1, ← Nat.shiftLeft_add_eq_or_of_lt hv, ← Nat.shiftLeft_add_eq_or_of_lt (by simpa using hi),
    Nat.shiftLeft_eq, Nat.shiftLeft_eq]
  cases we
  · simp
  · simp; omega

@[simp] theorem weField_xactWord (we : Bool) (reg : PortReg) (v : Word) :
    weField (xactWord we reg v) = we := by
  simp only [weField, xactWord, BitVec.getLsbD_append]
  simp

@[simp] theorem idxField_xactWord (we : Bool) (reg : PortReg) (v : Word) :
    idxField (xactWord we reg v) = indexOf reg := by
  apply BitVec.eq_of_getLsbD_eq
  intro i hi
  simp only [idxField, xactWord, BitVec.getLsbD_append, BitVec.getLsbD_extractLsb']
  simp [hi]

@[simp] theorem dataField_xactWord (we : Bool) (reg : PortReg) (v : Word) :
    dataField (xactWord we reg v) = v := by
  apply BitVec.eq_of_getLsbD_eq
  intro i hi
  simp only [dataField, xactWord, BitVec.getLsbD_append, BitVec.getLsbD_extractLsb']
  simp [hi]

/-- A transaction word is put together from its three fields. -/
theorem xactWord_fields (x : XactWord) :
    xactWord (weField x) (regOfIndex (idxField x)) (dataField x) = x := by
  apply BitVec.eq_of_getLsbD_eq
  intro i hi
  simp only [xactWord, indexOf_regOfIndex, BitVec.getLsbD_append, dataField, idxField, weField,
    BitVec.getLsbD_extractLsb', BitVec.getLsbD_ofBool]
  by_cases h1 : i < 64
  · simp [h1]
  · by_cases h2 : i < 67
    · have : i - 64 < 3 := by omega
      simp [h1, this]; congr 1; omega
    · have h3 : i = 67 := by omega
      subst h3; simp

@[simp] theorem transactionOf_xactWord (we : Bool) (reg : PortReg) (v : Word) :
    transactionOf (xactWord we reg v) = if we then .regwr reg v else .regrd reg v := by
  simp [transactionOf]

end Sys2Proof
end

