-- ==== Sys2Proof/Laws/State.lean ====
section
/-! SUPPORT. One lemma per field per update of State and of STATUS, all by unfolding the update once. -/

namespace Sys2Proof.Machine

/-! ### beginEvent -/

@[simp] theorem beginEvent_ctrlIe (rest : List Event) (s : State) : (beginEvent rest s).ctrlIe = s.ctrlIe := rfl
@[simp] theorem beginEvent_status (rest : List Event) (s : State) : (beginEvent rest s).status = s.status := rfl
@[simp] theorem beginEvent_lastCmd (rest : List Event) (s : State) : (beginEvent rest s).lastCmd = s.lastCmd := rfl
@[simp] theorem beginEvent_opa (rest : List Event) (s : State) : (beginEvent rest s).opa = s.opa := rfl
@[simp] theorem beginEvent_opb (rest : List Event) (s : State) : (beginEvent rest s).opb = s.opb := rfl
@[simp] theorem beginEvent_opm (rest : List Event) (s : State) : (beginEvent rest s).opm = s.opm := rfl
@[simp] theorem beginEvent_result (rest : List Event) (s : State) : (beginEvent rest s).result = s.result := rfl
@[simp] theorem beginEvent_seq (rest : List Event) (s : State) : (beginEvent rest s).seq = s.seq := rfl
@[simp] theorem beginEvent_w (rest : List Event) (s : State) : (beginEvent rest s).w = s.w := rfl
@[simp] theorem beginEvent_rdata (rest : List Event) (s : State) : (beginEvent rest s).rdata = none := rfl
@[simp] theorem beginEvent_events (rest : List Event) (s : State) : (beginEvent rest s).events = rest := rfl
@[simp] theorem beginEvent_draws (rest : List Event) (s : State) : (beginEvent rest s).draws = s.draws := rfl

/-! ### raiseError -/

@[simp] theorem raiseError_ctrlIe (c : ErrCode) (s : State) : (raiseError c s).ctrlIe = s.ctrlIe := rfl
@[simp] theorem raiseError_status (c : ErrCode) (s : State) : (raiseError c s).status = flagsRaised c s.status := rfl
@[simp] theorem raiseError_lastCmd (c : ErrCode) (s : State) : (raiseError c s).lastCmd = s.lastCmd := rfl
@[simp] theorem raiseError_opa (c : ErrCode) (s : State) : (raiseError c s).opa = s.opa := rfl
@[simp] theorem raiseError_opb (c : ErrCode) (s : State) : (raiseError c s).opb = s.opb := rfl
@[simp] theorem raiseError_opm (c : ErrCode) (s : State) : (raiseError c s).opm = s.opm := rfl
@[simp] theorem raiseError_result (c : ErrCode) (s : State) : (raiseError c s).result = s.result := rfl
@[simp] theorem raiseError_seq (c : ErrCode) (s : State) : (raiseError c s).seq = s.seq := rfl
@[simp] theorem raiseError_w (c : ErrCode) (s : State) : (raiseError c s).w = s.w := rfl
@[simp] theorem raiseError_rdata (c : ErrCode) (s : State) : (raiseError c s).rdata = s.rdata := rfl
@[simp] theorem raiseError_events (c : ErrCode) (s : State) : (raiseError c s).events = s.events := rfl
@[simp] theorem raiseError_draws (c : ErrCode) (s : State) : (raiseError c s).draws = s.draws := rfl

/-! ### accept -/

@[simp] theorem accept_ctrlIe (c : Command) (s : State) : (accept c s).ctrlIe = s.ctrlIe := rfl
@[simp] theorem accept_status (c : Command) (s : State) : (accept c s).status = flagsAccepted s.status := rfl
@[simp] theorem accept_lastCmd (c : Command) (s : State) : (accept c s).lastCmd = s.lastCmd := rfl
@[simp] theorem accept_opa (c : Command) (s : State) : (accept c s).opa = s.opa := rfl
@[simp] theorem accept_opb (c : Command) (s : State) : (accept c s).opb = s.opb := rfl
@[simp] theorem accept_opm (c : Command) (s : State) : (accept c s).opm = s.opm := rfl
@[simp] theorem accept_result (c : Command) (s : State) : (accept c s).result = s.result := rfl
@[simp] theorem accept_seq (c : Command) (s : State) : (accept c s).seq = .run (initialise c (latchOperands c s)).1 := rfl
@[simp] theorem accept_w (c : Command) (s : State) : (accept c s).w = (initialise c (latchOperands c s)).2 := rfl
@[simp] theorem accept_rdata (c : Command) (s : State) : (accept c s).rdata = s.rdata := rfl
@[simp] theorem accept_events (c : Command) (s : State) : (accept c s).events = s.events := rfl
@[simp] theorem accept_draws (c : Command) (s : State) : (accept c s).draws = s.draws := rfl

/-! ### statusWrite -/

@[simp] theorem statusWrite_ctrlIe (v : Word) (s : State) : (statusWrite v s).ctrlIe = s.ctrlIe := rfl
@[simp] theorem statusWrite_status (v : Word) (s : State) : (statusWrite v s).status = flagsCleared v s.status := rfl
@[simp] theorem statusWrite_lastCmd (v : Word) (s : State) : (statusWrite v s).lastCmd = s.lastCmd := rfl
@[simp] theorem statusWrite_opa (v : Word) (s : State) : (statusWrite v s).opa = s.opa := rfl
@[simp] theorem statusWrite_opb (v : Word) (s : State) : (statusWrite v s).opb = s.opb := rfl
@[simp] theorem statusWrite_opm (v : Word) (s : State) : (statusWrite v s).opm = s.opm := rfl
@[simp] theorem statusWrite_result (v : Word) (s : State) : (statusWrite v s).result = s.result := rfl
@[simp] theorem statusWrite_seq (v : Word) (s : State) : (statusWrite v s).seq = s.seq := rfl
@[simp] theorem statusWrite_w (v : Word) (s : State) : (statusWrite v s).w = s.w := rfl
@[simp] theorem statusWrite_rdata (v : Word) (s : State) : (statusWrite v s).rdata = s.rdata := rfl
@[simp] theorem statusWrite_events (v : Word) (s : State) : (statusWrite v s).events = s.events := rfl
@[simp] theorem statusWrite_draws (v : Word) (s : State) : (statusWrite v s).draws = s.draws := rfl

/-! ### finish -/

@[simp] theorem finish_ctrlIe (r : Word) (s : State) : (finish r s).ctrlIe = s.ctrlIe := rfl
@[simp] theorem finish_status (r : Word) (s : State) : (finish r s).status = flagsCompleted s.status := rfl
@[simp] theorem finish_lastCmd (r : Word) (s : State) : (finish r s).lastCmd = s.lastCmd := rfl
@[simp] theorem finish_opa (r : Word) (s : State) : (finish r s).opa = s.opa := rfl
@[simp] theorem finish_opb (r : Word) (s : State) : (finish r s).opb = s.opb := rfl
@[simp] theorem finish_opm (r : Word) (s : State) : (finish r s).opm = s.opm := rfl
@[simp] theorem finish_result (r : Word) (s : State) : (finish r s).result = r := rfl
@[simp] theorem finish_seq (r : Word) (s : State) : (finish r s).seq = .idle := rfl
@[simp] theorem finish_w (r : Word) (s : State) : (finish r s).w = s.w := rfl
@[simp] theorem finish_rdata (r : Word) (s : State) : (finish r s).rdata = s.rdata := rfl
@[simp] theorem finish_events (r : Word) (s : State) : (finish r s).events = s.events := rfl
@[simp] theorem finish_draws (r : Word) (s : State) : (finish r s).draws = s.draws := rfl

/-! ### setPrime -/

@[simp] theorem setPrime_ctrlIe (p : Bool) (s : State) : (setPrime p s).ctrlIe = s.ctrlIe := rfl
@[simp] theorem setPrime_status (p : Bool) (s : State) : (setPrime p s).status = { s.status with prime := p } := rfl
@[simp] theorem setPrime_lastCmd (p : Bool) (s : State) : (setPrime p s).lastCmd = s.lastCmd := rfl
@[simp] theorem setPrime_opa (p : Bool) (s : State) : (setPrime p s).opa = s.opa := rfl
@[simp] theorem setPrime_opb (p : Bool) (s : State) : (setPrime p s).opb = s.opb := rfl
@[simp] theorem setPrime_opm (p : Bool) (s : State) : (setPrime p s).opm = s.opm := rfl
@[simp] theorem setPrime_result (p : Bool) (s : State) : (setPrime p s).result = s.result := rfl
@[simp] theorem setPrime_seq (p : Bool) (s : State) : (setPrime p s).seq = s.seq := rfl
@[simp] theorem setPrime_w (p : Bool) (s : State) : (setPrime p s).w = s.w := rfl
@[simp] theorem setPrime_rdata (p : Bool) (s : State) : (setPrime p s).rdata = s.rdata := rfl
@[simp] theorem setPrime_events (p : Bool) (s : State) : (setPrime p s).events = s.events := rfl
@[simp] theorem setPrime_draws (p : Bool) (s : State) : (setPrime p s).draws = s.draws := rfl

/-! ### setNoinv -/

@[simp] theorem setNoinv_ctrlIe (n : Bool) (s : State) : (setNoinv n s).ctrlIe = s.ctrlIe := rfl
@[simp] theorem setNoinv_status (n : Bool) (s : State) : (setNoinv n s).status = { s.status with noinv := n } := rfl
@[simp] theorem setNoinv_lastCmd (n : Bool) (s : State) : (setNoinv n s).lastCmd = s.lastCmd := rfl
@[simp] theorem setNoinv_opa (n : Bool) (s : State) : (setNoinv n s).opa = s.opa := rfl
@[simp] theorem setNoinv_opb (n : Bool) (s : State) : (setNoinv n s).opb = s.opb := rfl
@[simp] theorem setNoinv_opm (n : Bool) (s : State) : (setNoinv n s).opm = s.opm := rfl
@[simp] theorem setNoinv_result (n : Bool) (s : State) : (setNoinv n s).result = s.result := rfl
@[simp] theorem setNoinv_seq (n : Bool) (s : State) : (setNoinv n s).seq = s.seq := rfl
@[simp] theorem setNoinv_w (n : Bool) (s : State) : (setNoinv n s).w = s.w := rfl
@[simp] theorem setNoinv_rdata (n : Bool) (s : State) : (setNoinv n s).rdata = s.rdata := rfl
@[simp] theorem setNoinv_events (n : Bool) (s : State) : (setNoinv n s).events = s.events := rfl
@[simp] theorem setNoinv_draws (n : Bool) (s : State) : (setNoinv n s).draws = s.draws := rfl

/-! ### resetBlock -/

@[simp] theorem resetBlock_ctrlIe (s : State) : (resetBlock s).ctrlIe = false := rfl
@[simp] theorem resetBlock_status (s : State) : (resetBlock s).status = Status.reset := rfl
@[simp] theorem resetBlock_lastCmd (s : State) : (resetBlock s).lastCmd = 0#64 := rfl
@[simp] theorem resetBlock_opa (s : State) : (resetBlock s).opa = 0#64 := rfl
@[simp] theorem resetBlock_opb (s : State) : (resetBlock s).opb = 0#64 := rfl
@[simp] theorem resetBlock_opm (s : State) : (resetBlock s).opm = 0#64 := rfl
@[simp] theorem resetBlock_result (s : State) : (resetBlock s).result = 0#64 := rfl
@[simp] theorem resetBlock_seq (s : State) : (resetBlock s).seq = .idle := rfl
@[simp] theorem resetBlock_w (s : State) : (resetBlock s).w = freeWorking s.draws := rfl
@[simp] theorem resetBlock_rdata (s : State) : (resetBlock s).rdata = s.rdata := rfl
@[simp] theorem resetBlock_events (s : State) : (resetBlock s).events = s.events := rfl
@[simp] theorem resetBlock_draws (s : State) : (resetBlock s).draws = s.draws + workingDraws := rfl

/-! ### flagsAccepted -/

@[simp] theorem flagsAccepted_busy (st : Status) : (flagsAccepted st).busy = true := rfl
@[simp] theorem flagsAccepted_done (st : Status) : (flagsAccepted st).done = false := rfl
@[simp] theorem flagsAccepted_err (st : Status) : (flagsAccepted st).err = false := rfl
@[simp] theorem flagsAccepted_ovr (st : Status) : (flagsAccepted st).ovr = st.ovr := rfl
@[simp] theorem flagsAccepted_prime (st : Status) : (flagsAccepted st).prime = false := rfl
@[simp] theorem flagsAccepted_noinv (st : Status) : (flagsAccepted st).noinv = false := rfl
@[simp] theorem flagsAccepted_errcode (st : Status) : (flagsAccepted st).errcode = .none := rfl

/-! ### flagsRaised -/

@[simp] theorem flagsRaised_busy (c : ErrCode) (st : Status) : (flagsRaised c st).busy = st.busy := rfl
@[simp] theorem flagsRaised_done (c : ErrCode) (st : Status) : (flagsRaised c st).done = true := rfl
@[simp] theorem flagsRaised_err (c : ErrCode) (st : Status) : (flagsRaised c st).err = true := rfl
@[simp] theorem flagsRaised_ovr (c : ErrCode) (st : Status) : (flagsRaised c st).ovr = st.ovr := rfl
@[simp] theorem flagsRaised_prime (c : ErrCode) (st : Status) : (flagsRaised c st).prime = false := rfl
@[simp] theorem flagsRaised_noinv (c : ErrCode) (st : Status) : (flagsRaised c st).noinv = false := rfl
@[simp] theorem flagsRaised_errcode (c : ErrCode) (st : Status) : (flagsRaised c st).errcode = c := rfl

/-! ### flagsOverrun -/

@[simp] theorem flagsOverrun_busy (st : Status) : (flagsOverrun st).busy = st.busy := rfl
@[simp] theorem flagsOverrun_done (st : Status) : (flagsOverrun st).done = st.done := rfl
@[simp] theorem flagsOverrun_err (st : Status) : (flagsOverrun st).err = st.err := rfl
@[simp] theorem flagsOverrun_ovr (st : Status) : (flagsOverrun st).ovr = true := rfl
@[simp] theorem flagsOverrun_prime (st : Status) : (flagsOverrun st).prime = st.prime := rfl
@[simp] theorem flagsOverrun_noinv (st : Status) : (flagsOverrun st).noinv = st.noinv := rfl
@[simp] theorem flagsOverrun_errcode (st : Status) : (flagsOverrun st).errcode = st.errcode := rfl

/-! ### flagsCompleted -/

@[simp] theorem flagsCompleted_busy (st : Status) : (flagsCompleted st).busy = false := rfl
@[simp] theorem flagsCompleted_done (st : Status) : (flagsCompleted st).done = true := rfl
@[simp] theorem flagsCompleted_err (st : Status) : (flagsCompleted st).err = st.err := rfl
@[simp] theorem flagsCompleted_ovr (st : Status) : (flagsCompleted st).ovr = st.ovr := rfl
@[simp] theorem flagsCompleted_prime (st : Status) : (flagsCompleted st).prime = st.prime := rfl
@[simp] theorem flagsCompleted_noinv (st : Status) : (flagsCompleted st).noinv = st.noinv := rfl
@[simp] theorem flagsCompleted_errcode (st : Status) : (flagsCompleted st).errcode = st.errcode := rfl

/-! ### flagsCleared -/

@[simp] theorem flagsCleared_busy (v : Word) (st : Status) : (flagsCleared v st).busy = st.busy := rfl
@[simp] theorem flagsCleared_done (v : Word) (st : Status) : (flagsCleared v st).done = (st.done && !v.getLsbD 1) := rfl
@[simp] theorem flagsCleared_err (v : Word) (st : Status) : (flagsCleared v st).err = (st.err && !v.getLsbD 2) := rfl
@[simp] theorem flagsCleared_ovr (v : Word) (st : Status) : (flagsCleared v st).ovr = (st.ovr && !v.getLsbD 3) := rfl
@[simp] theorem flagsCleared_prime (v : Word) (st : Status) : (flagsCleared v st).prime = st.prime := rfl
@[simp] theorem flagsCleared_noinv (v : Word) (st : Status) : (flagsCleared v st).noinv = st.noinv := rfl
@[simp] theorem flagsCleared_errcode (v : Word) (st : Status) : (flagsCleared v st).errcode = if v.getLsbD 2 then .none else st.errcode := rfl

end Sys2Proof.Machine
end

