-- ==== Sys2Proof/Laws/Engine.lean ====
section
/-! SUPPORT. What the engine's functions keep: the latched opcode and operands, and being defined. -/

namespace Sys2Proof.Machine

/-- `w'` holds the same latched command as `w` (R41, R95). -/
def SameCommand (w w' : Working) : Prop := w'.op = w.op ∧ w'.a = w.a ∧ w'.b = w.b ∧ w'.m = w.m

theorem SameCommand.refl (w : Working) : SameCommand w w := ⟨rfl, rfl, rfl, rfl⟩

theorem SameCommand.trans {u v w : Working} (h : SameCommand u v) (h' : SameCommand v w) :
    SameCommand u w :=
  ⟨h'.1.trans h.1, h'.2.1.trans h.2.1, h'.2.2.1.trans h.2.2.1, h'.2.2.2.trans h.2.2.2⟩

theorem initialise_same (c : Command) (w : Working) : SameCommand w (initialise c w).2 := by
  cases c <;> simp only [initialise] <;> try split
  all_goals simp [SameCommand, putScan, putEuclid]

theorem nextWitness_same (w : Working) : SameCommand w (nextWitness w).2 := by
  simp only [nextWitness]; split <;> simp [SameCommand]

theorem advance_same (p : Position × Working) : SameCommand p.2 (advance p).2 := by
  obtain ⟨pos, w⟩ := p
  cases pos with
  | loop =>
    simp only [advance]
    simp only [loopStep]
    repeat' split
    all_goals simp [SameCommand, putScan, putEuclid]
  | halve => simp only [advance, halveStep]; split <;> simp [SameCommand]
  | witness =>
    simp only [advance, takeWitness]
    split
    · exact .refl w
    · split
      · exact SameCommand.trans (v := { w with x := 1#64 }) (by simp [SameCommand]) (nextWitness_same _)
      · simp [SameCommand]
  | square =>
    simp only [advance, squareStep]
    split
    · exact nextWitness_same w
    · split <;> simp [SameCommand]
  | declared v => exact .refl w
  | finished => exact .refl w

theorem advanceN_same (k : Nat) (p : Position × Working) : SameCommand p.2 (advanceN k p).2 := by
  induction k generalizing p with
  | zero => exact .refl _
  | succ k ih => exact (advance_same p).trans (ih (advance p))

theorem advanceN_succ (k : Nat) (p : Position × Working) :
    advanceN (k + 1) p = advance (advanceN k p) := by
  induction k generalizing p with
  | zero => rfl
  | succ k ih => exact ih (advance p)

theorem advanceN_add (j k : Nat) (p : Position × Working) :
    advanceN (j + k) p = advanceN k (advanceN j p) := by
  induction j generalizing p with
  | zero => simp [advanceN]
  | succ j ih => rw [Nat.succ_add]; exact ih (advance p)

theorem runnable_of_same {w w' : Working} (h : SameCommand w w') : runnable w' = runnable w := by
  simp [runnable, h.1, h.2.2.2]

/-- When the engine's command is defined (R96). -/
theorem runnable_eq_ok {w : Working} {c : Command} :
    runnable w = .ok c ↔ w.op = opcodeOf c ∧ (c = .mrtest ∨ w.m ≠ 0#64) := by
  constructor
  · intro h
    unfold runnable at h
    split at h
    · cases h
    · rename_i d hd
      split at h
      · cases h
      · rename_i hm
        cases h
        refine ⟨opcodeOf_of_commandOfOpcode hd, ?_⟩
        cases c <;> simp_all [needsModulus]
  · rintro ⟨ho, hm⟩
    have : (needsModulus c && w.m == 0#64) = false := by
      rcases hm with rfl | hm
      · rfl
      · simp [hm]
    simp [runnable, ho, this]

/-- When an iteration is defined. -/
theorem iterationFault_eq_none {pos : Position} {w : Working} :
    iterationFault pos w = none ↔
      (∃ c, runnable w = .ok c) ∧ (pastGuard pos = true → w.a ≠ 0#64) ∧
        (insideWitnesses pos = true → w.wi.toNat < 12) := by
  unfold iterationFault
  cases runnable w with
  | error f => simp
  | ok c =>
    simp only [Except.ok.injEq, exists_eq', true_and]
    split
    · rename_i h; simp_all
    · rename_i h
      split
      · rename_i h'; simp_all
      · rename_i h'; simp_all

/-- The start of a sequence is defined where the command is. -/
theorem initialise_defined {c : Command} {w : Working} (h : runnable w = .ok c) :
    iterationFault (initialise c w).1 (initialise c w).2 = none := by
  have hs := initialise_same c w
  refine iterationFault_eq_none.2 ⟨⟨c, by rw [runnable_of_same hs, h]⟩, ?_, ?_⟩
  · rw [hs.2.1]
    cases c with
    | mrtest =>
      by_cases hg : mrGuard w.a.toNat = true
      · simp [initialise, hg, pastGuard]
      · exact fun _ ha => hg (by rw [ha]; rfl)
    | _ => simp [initialise, pastGuard]
  · cases c with
    | mrtest => simp only [initialise]; split <;> simp [insideWitnesses]
    | _ => simp [initialise, insideWitnesses]

theorem nextWitness_defined {w : Working} (h : w.wi.toNat < 12) :
    insideWitnesses (nextWitness w).1 = true → (nextWitness w).2.wi.toNat < 12 := by
  unfold nextWitness
  split
  · simp [insideWitnesses]
  · rename_i hne
    intro _
    have : w.wi.toNat ≠ 11 := fun h11 => hne (BitVec.eq_of_toNat_eq h11)
    simp only [BitVec.toNat_add, BitVec.toNat_ofNat]
    omega

/-- An iteration of a defined sequence leaves it defined. -/
theorem advance_defined {pos : Position} {w : Working} (h : iterationFault pos w = none) :
    iterationFault (advance (pos, w)).1 (advance (pos, w)).2 = none := by
  have hs := advance_same (pos, w)
  obtain ⟨⟨c, hc⟩, ha, hw⟩ := iterationFault_eq_none.1 h
  refine iterationFault_eq_none.2 ⟨⟨c, by rw [runnable_of_same hs, hc]⟩, ?_, ?_⟩
  · rw [hs.2.1]
    cases pos with
    | loop =>
      simp only [advance, loopStep]
      repeat' split
      all_goals simp [pastGuard]
    | declared v => simp [advance, pastGuard]
    | finished => simp [advance, pastGuard]
    | _ => exact fun _ => ha rfl
  · cases pos with
    | loop =>
      simp only [advance, loopStep]
      repeat' split
      all_goals simp [insideWitnesses]
    | halve => simp only [advance, halveStep]; split <;> simp [insideWitnesses]
    | witness =>
      have := hw rfl
      simp only [advance, takeWitness]
      split
      · simp [insideWitnesses]
      · split
        · exact nextWitness_defined this
        · exact fun _ => this
    | square =>
      have := hw rfl
      simp only [advance, squareStep]
      split
      · exact nextWitness_defined this
      · split
        · simp [insideWitnesses]
        · exact fun _ => this
    | declared v => simp [advance, insideWitnesses]
    | finished => simp [advance, insideWitnesses]

end Sys2Proof.Machine
end

