-- ==== Sys2Proof/Laws/Ops.lean ====
section
/-! SUPPORT. What each shared operation can do, said once. -/

namespace Sys2Proof.Machine

/-- Every command's meaning is the write of its word (R79). -/
theorem exec_ofCommand (c : Command) (s : State) :
    exec (Instr.ofCommand c) s = .next (commandWrite (commandWord c) s) := by
  cases c <;> rfl

theorem exec_regwr (reg : PortReg) (v : Word) (s : State) :
    exec (.regwr reg v) s = .next (portWrite reg v s) := rfl

theorem exec_regrd (reg : PortReg) (v : Word) (s : State) :
    exec (.regrd reg v) s = .next { s with rdata := some (portRead reg s) } := rfl

/-- An instruction that writes CMD performs the command write of its word. -/
theorem exec_of_commandOf {i : Instr} {v : Word} (h : commandOf i = some v) (s : State) :
    exec i s = .next (commandWrite v s) := by
  cases i with
  | regwr reg d => cases reg <;> simp [commandOf] at h; subst h; rfl
  | regrd reg d => simp [commandOf] at h
  | _ => simp only [commandOf, Option.some.injEq] at h; subst h; rfl

/-- Every instruction answers a next state, in every state. -/
theorem exec_answers_next (i : Instr) (s : State) : ∃ t, exec i s = .next t := by
  cases i <;> exact ⟨_, rfl⟩

/-- A command write while BUSY (R164). -/
theorem commandWrite_busy {v : Word} {s : State} (h : s.status.busy = true) :
    commandWrite v s = { s with status := flagsOverrun s.status } := by
  simp [commandWrite, h]

/-- A command write of an illegal word (R163). -/
theorem commandWrite_illegal {v : Word} {s : State} {e : DecodeError} (h : s.status.busy = false)
    (hd : decodeCommand v = .error e) :
    commandWrite v s = raiseError .illegalCmd { s with lastCmd := v } := by
  simp [commandWrite, h, hd]

/-- A command write of a modulus command while OPM = 0 (R162). -/
theorem commandWrite_modZero {v : Word} {s : State} {c : Command} (h : s.status.busy = false)
    (hd : decodeCommand v = .ok c) (hc : needsModulus c = true) (hm : s.opm = 0#64) :
    commandWrite v s = raiseError .modZero { s with lastCmd := v } := by
  simp [commandWrite, h, hd, hc, hm]

theorem needsModulus_iff (c : Command) : needsModulus c = true ↔ c ≠ .mrtest := by
  cases c <;> simp [needsModulus]

/-- A command write that is accepted (R94, R95). -/
theorem commandWrite_accepted {v : Word} {s : State} {c : Command} (h : s.status.busy = false)
    (hd : decodeCommand v = .ok c) (hc : c = .mrtest ∨ s.opm ≠ 0#64) :
    commandWrite v s = accept c { s with lastCmd := v } := by
  have : (needsModulus c && s.opm == 0#64) = false := by
    rcases hc with rfl | hm
    · rfl
    · simp [hm]
  simp [commandWrite, h, hd, this]

/-- The four outcomes of a command write, in the order of R165. -/
theorem commandWrite_cases (v : Word) (s : State) :
    (s.status.busy = true ∧ commandWrite v s = { s with status := flagsOverrun s.status }) ∨
    (s.status.busy = false ∧ (∃ e, decodeCommand v = .error e) ∧
      commandWrite v s = raiseError .illegalCmd { s with lastCmd := v }) ∨
    (s.status.busy = false ∧ (∃ c, decodeCommand v = .ok c ∧ c ≠ .mrtest ∧ s.opm = 0#64) ∧
      commandWrite v s = raiseError .modZero { s with lastCmd := v }) ∨
    (s.status.busy = false ∧ ∃ c, decodeCommand v = .ok c ∧ (c = .mrtest ∨ s.opm ≠ 0#64) ∧
      commandWrite v s = accept c { s with lastCmd := v }) := by
  cases hb : s.status.busy with
  | true => exact .inl ⟨rfl, commandWrite_busy hb⟩
  | false =>
    cases hd : decodeCommand v with
    | error e => exact .inr (.inl ⟨rfl, ⟨e, rfl⟩, commandWrite_illegal hb hd⟩)
    | ok c =>
      by_cases hc : c = .mrtest ∨ s.opm ≠ 0#64
      · exact .inr (.inr (.inr ⟨rfl, c, rfl, hc, commandWrite_accepted hb hd hc⟩))
      · simp only [not_or, not_not] at hc
        exact .inr (.inr (.inl ⟨rfl, ⟨c, rfl, hc⟩,
          commandWrite_modZero hb hd ((needsModulus_iff c).2 hc.1) hc.2⟩))

/-- What an instruction can do: a command write, a soft reset, a write of IE, a status write, an operand
write, nothing, or a read. -/
theorem exec_cases (i : Instr) (s : State) :
    (∃ v, commandOf i = some v ∧ exec i s = .next (commandWrite v s)) ∨
    (commandOf i = none ∧
      ((softResets i = true ∧ exec i s = .next (resetBlock s)) ∨
      (softResets i = false ∧
        ((∃ v, i = .regwr .ctrl v ∧ v.getLsbD 1 = false ∧
          exec i s = .next { s with ctrlIe := v.getLsbD 0 }) ∨
        (∃ v, i = .regwr .status v ∧ exec i s = .next (statusWrite v s)) ∨
        (∃ v, i = .regwr .opa v ∧ exec i s = .next { s with opa := v }) ∨
        (∃ v, i = .regwr .opb v ∧ exec i s = .next { s with opb := v }) ∨
        (∃ v, i = .regwr .opm v ∧ exec i s = .next { s with opm := v }) ∨
        (∃ v, (i = .regwr .id v ∨ i = .regwr .result v) ∧ exec i s = .next s) ∨
        (∃ reg v, i = .regrd reg v ∧ exec i s = .next { s with rdata := some (portRead reg s) }))))) := by
  cases i with
  | regrd reg d => exact .inr ⟨rfl, .inr ⟨rfl, by simp [exec_regrd]⟩⟩
  | regwr reg d =>
    cases reg with
    | cmd => exact .inl ⟨d, rfl, rfl⟩
    | ctrl =>
      refine .inr ⟨rfl, ?_⟩
      cases hd : d.getLsbD 1 with
      | true => exact .inl ⟨hd, by simp only [exec_regwr, portWrite, ctrlWrite, hd, if_true]⟩
      | false => exact .inr ⟨hd, .inl ⟨d, rfl, hd, by
        simp only [exec_regwr, portWrite, ctrlWrite, hd, Bool.false_eq_true, if_false]⟩⟩
    | _ => exact .inr ⟨rfl, .inr ⟨rfl, by simp [exec_regwr, portWrite]⟩⟩
  | _ => exact .inl ⟨_, rfl, rfl⟩

/-- What an event that leads on can do: an instruction, an engine iteration, a completion, nothing, or a
hard reset. -/
theorem perform_cases {ev : Event} {s t : State} (h : perform ev s = .next t) :
    (∃ i, eventInstr ev = some i ∧ exec i s = .next t) ∨
    (ev = .tick ∧ tick s = .next t) ∨
    (ev = .complete ∧ running s = true ∧ complete s = .next t) ∨
    (ev = .complete ∧ running s = false ∧ t = s) ∨
    (∃ presented, ev = .hardReset presented ∧ t = hardReset presented s) := by
  cases ev with
  | xact x => exact .inl ⟨_, rfl, h⟩
  | cmd v => exact .inl ⟨_, rfl, h⟩
  | bus access =>
    simp only [perform] at h
    cases hb : busTransaction access with
    | ok i => simp only [hb] at h; exact .inl ⟨i, by simp [eventInstr, hb, Except.toOption], h⟩
    | error r => simp [hb] at h
  | tick => exact .inr (.inl ⟨rfl, h⟩)
  | complete =>
    simp only [perform, completeIfRunning] at h
    cases hq : s.seq with
    | idle =>
      simp only [hq, Host.Outcome.next.injEq] at h
      exact .inr (.inr (.inr (.inl ⟨rfl, by simp [running, hq], h.symm⟩)))
    | run pos =>
      simp only [hq] at h
      exact .inr (.inr (.inl ⟨rfl, by simp [running, hq], h⟩))
  | hardReset presented =>
    simp only [perform, Host.Outcome.next.injEq] at h
    exact .inr (.inr (.inr (.inr ⟨presented, rfl, h.symm⟩)))

/-- What an iteration does, if it leads on. -/
theorem tick_cases {s t : State} (h : tick s = .next t) :
    (s.seq = .idle ∧ t = s) ∨
    (∃ pos, s.seq = .run pos ∧ iterationFault pos s.w = none ∧
      t = { s with seq := .run (advance (pos, s.w)).1, w := (advance (pos, s.w)).2 }) := by
  unfold tick at h
  cases hq : s.seq with
  | idle => simp only [hq, Host.Outcome.next.injEq] at h; exact .inl ⟨rfl, h.symm⟩
  | run pos =>
    simp only [hq] at h
    cases hu : iterationFault pos s.w with
    | some f => simp [hu] at h
    | none =>
      simp only [hu, Host.Outcome.next.injEq] at h
      exact .inr ⟨pos, rfl, hu, h.symm⟩

/-- A completion leads on exactly where the command is defined, and then writes what that command writes. -/
theorem complete_eq_next {s t : State} :
    complete s = .next t ↔ ∃ c, runnable s.w = .ok c ∧ t = completeCommand c s := by
  unfold complete
  cases runnable s.w with
  | error f => simp
  | ok c => simp [eq_comm]

/-- A hard reset is the reset of the block, but for what a presented read leaves on the port (R190). -/
theorem hardReset_eq (presented : Option XactWord) (s : State) :
    hardReset presented s =
      { resetBlock s with rdata := (hardReset presented s).rdata, draws := (hardReset presented s).draws } := by
  cases presented with
  | none => rfl
  | some x => simp only [hardReset]; split <;> rfl

end Sys2Proof.Machine
end

