-- ==== Sys2Proof/Laws/PerInstr.lean ====
section
/-! SUPPORT. Statements made once per instruction. -/

namespace Sys2Proof.Laws.EncodedLength

/-- A command word is encoded in 8 bytes, a transaction word in 9 (R70, R71, R76). -/
def Statement (i : Instr) : Prop :=
  (encode i).length =
    match i with
    | .madd | .msub | .mmul | .mpow | .mrtest | .minv => 8
    | .regrd _ _ | .regwr _ _ => 9

theorem madd : Statement .madd := bytesLE_length 8 _

theorem msub : Statement .msub := bytesLE_length 8 _

theorem mmul : Statement .mmul := bytesLE_length 8 _

theorem mpow : Statement .mpow := bytesLE_length 8 _

theorem mrtest : Statement .mrtest := bytesLE_length 8 _

theorem minv : Statement .minv := bytesLE_length 8 _

theorem regrd (reg : PortReg) (data : Word) : Statement (.regrd reg data) := bytesLE_length 9 _

theorem regwr (reg : PortReg) (data : Word) : Statement (.regwr reg data) := bytesLE_length 9 _

end Sys2Proof.Laws.EncodedLength
end

