-- ==== Sys2Proof/Tests/Slice0.lean ====
section
/-! SUPPORT. The model's own tests. Expected values are those of 95_test_vectors.md and of the encoding tables
of 30_encoding.md; the `witness_` theorems meet the hypotheses of the obligations they are named after. -/

-- One test after another: checked side by side they take more threads than the memory limit leaves room for.
set_option Elab.async false

open Sys2Proof Sys2Proof.Machine

namespace Sys2Proof.Tests

/-! ### Helpers -/

/-- Reset, then OPA, OPB and OPM written. -/
def ready (a b m : Word) : State := { State.reset with opa := a, opb := b, opm := m }

/-- The state an outcome leads to, or the reset state. -/
def after (o : Host.Outcome State Fault Refusal) : State :=
  match o with
  | .next t => t
  | .fault _ => State.reset
  | .refused _ => State.reset

/-- The command given and then completed. -/
def completed (c : Command) (a b m : Word) : State :=
  after (perform .complete (after (exec (Instr.ofCommand c) (ready a b m))))

/-- The command running. -/
def started (c : Command) (a b m : Word) : State := after (exec (Instr.ofCommand c) (ready a b m))

/-- RESULT and the STATUS a read returns. -/
def outcome (s : State) : Word × Word := (s.result, portRead .status s)

/-- A status with every clearable flag set. -/
def flagged : State :=
  { ready 1#64 2#64 3#64 with
    ctrlIe := true
    status :=
      { busy := false, done := true, err := true, ovr := true, prime := false, noinv := false
        errcode := .modZero } }

/-! ### WellFormed: the ill-formed term for its one check (R70, R77) -/

theorem test_wf_refuses_read_with_data : (Instr.regrd .opa 5#64).wf = false := by decide
theorem test_wf_accepts_read_and_write :
    (Instr.regrd .opa 0#64).wf = true ∧ (Instr.regwr .opa 5#64).wf = true := by decide
theorem test_decode_refuses_read_with_data :
    decodeXact 0x40000000000000005#68 = .error .readWithData := by decide

/-! ### Decoding: words written out from R70-R72 -/

theorem test_decode_madd : decodeTableWord 64 0x0000000000000001 = some .madd := by decide +kernel
theorem test_decode_msub : decodeTableWord 64 0x0000000000000002 = some .msub := by decide +kernel
theorem test_decode_mmul : decodeTableWord 64 0x0000000000000003 = some .mmul := by decide +kernel
theorem test_decode_mpow : decodeTableWord 64 0x0000000000000004 = some .mpow := by decide +kernel
theorem test_decode_mrtest : decodeTableWord 64 0x0000000000000005 = some .mrtest := by decide +kernel
theorem test_decode_minv : decodeTableWord 64 0x0000000000000006 = some .minv := by decide +kernel

/-- 95, table 2.8 and R74, R75: reserved opcodes and bits name no command. -/
theorem test_decode_reserved_command_words :
    decodeTableWord 64 0x0 = none ∧ decodeTableWord 64 0x7 = none ∧ decodeTableWord 64 0xF = none ∧
    decodeTableWord 64 0x10 = none ∧ decodeTableWord 64 0x8000000000000001 = none := by decide +kernel

/-- WE = 0 in bit 67, IDX in 66:64, DATA = 0: `0b0 idx 0…0`. -/
theorem test_decode_regrd :
    decodeTableWord 68 0x00000000000000000 = some (.regrd .id 0#64) ∧
    decodeTableWord 68 0x10000000000000000 = some (.regrd .ctrl 0#64) ∧
    decodeTableWord 72 0x20000000000000000 = some (.regrd .status 0#64) ∧
    decodeTableWord 72 0x30000000000000000 = some (.regrd .cmd 0#64) ∧
    decodeTableWord 68 0x70000000000000000 = some (.regrd .result 0#64) ∧
    decodeTableWord 68 0x70000000000000001 = none := by decide +kernel

/-- WE = 1: `0b1 idx data`. -/
theorem test_decode_regwr :
    decodeTableWord 68 0x90000000000000001 = some (.regwr .ctrl 1#64) ∧
    decodeTableWord 68 0xA000000000000000E = some (.regwr .status 14#64) ∧
    decodeTableWord 68 0xB0000000000000004 = some (.regwr .cmd 4#64) ∧
    decodeTableWord 72 0xC0000000000000005 = some (.regwr .opa 5#64) ∧
    decodeTableWord 68 0xD0000000000000009 = some (.regwr .opb 9#64) ∧
    decodeTableWord 68 0xEFFFFFFFFFFFFFFC5 = some (.regwr .opm 0xFFFFFFFFFFFFFFC5#64) ∧
    decodeTableWord 72 0x100000000000000000 = none := by decide +kernel

theorem test_command_writes_encode_as_written :
    xactWord true .opa 4#64 = 0xC0000000000000004#68 ∧ xactWord true .opb 13#64 = 0xD000000000000000D#68 ∧
    xactWord true .cmd 4#64 = 0xB0000000000000004#68 ∧ xactWord false .status 0#64 = 0x20000000000000000#68 := by
  decide

/-! ### The instructions: 95, tables 2.2 to 2.8 -/

theorem test_madd_both_operands_above_modulus :
    outcome (completed .madd 0xFFFFFFFFFFFFFFFF#64 0xFFFFFFFFFFFFFFFF#64 0xFFFFFFFFFFFFFFFE#64) =
      (0x2#64, 0x2#64) := by decide +kernel
theorem test_madd_sum_needs_65_bits :
    outcome (completed .madd 0x8000000000000000#64 0x8000000000000000#64 0xFFFFFFFFFFFFFFFF#64) =
      (1#64, 0x2#64) := by decide +kernel

theorem test_msub_borrows : outcome (completed .msub 5#64 9#64 11#64) = (7#64, 0x2#64) := by decide +kernel
theorem test_msub_reduces_b_first :
    outcome (completed .msub 123#64 0xFFFFFFFFFFFFFFFF#64 1000#64) = (508#64, 0x2#64) := by decide +kernel

theorem test_mmul_keeps_the_high_half :
    outcome (completed .mmul 0x100000000#64 0x100000000#64 0xFFFFFFFFFFFFFFFF#64) = (1#64, 0x2#64) := by
  decide +kernel
theorem test_mmul_worked_example :
    outcome (completed .mmul 0x8000000000000005#64 0x8000000000000007#64 0xFFFFFFFFFFFFFFC5#64) =
      (0xC0000000000004BF#64, 0x2#64) := by decide +kernel

theorem test_mpow_small :
    outcome (completed .mpow 4#64 13#64 497#64) = (445#64, 0x2#64) ∧
    outcome (completed .mpow 0#64 0#64 7#64) = (1#64, 0x2#64) ∧
    outcome (completed .mpow 0#64 0#64 1#64) = (0#64, 0x2#64) := by decide +kernel
theorem test_mpow_wide_modulus :
    outcome (completed .mpow 12345#64 65537#64 0x1FFFFFFFFFFFFFFF#64) = (0x115606E2EBC7F422#64, 0x2#64) := by
  decide +kernel

/-- 95, tables 2.5 and 2.6: 3, 7 and 11 tell C1's two readings apart; 41 passes all 12 witnesses. -/
theorem test_mrtest_primes :
    outcome (completed .mrtest 3#64 0#64 0#64) = (1#64, 0x12#64) ∧
    outcome (completed .mrtest 7#64 0#64 0#64) = (1#64, 0x12#64) ∧
    outcome (completed .mrtest 11#64 0#64 0#64) = (1#64, 0x12#64) ∧
    outcome (completed .mrtest 2#64 0#64 0#64) = (1#64, 0x12#64) ∧
    outcome (completed .mrtest 41#64 0#64 0#64) = (1#64, 0x12#64) := by decide +kernel
theorem test_mrtest_composites :
    outcome (completed .mrtest 0#64 0#64 0#64) = (0#64, 0x2#64) ∧
    outcome (completed .mrtest 1#64 0#64 0#64) = (0#64, 0x2#64) ∧
    outcome (completed .mrtest 9#64 0#64 0#64) = (0#64, 0x2#64) ∧
    outcome (completed .mrtest 561#64 0#64 0#64) = (0#64, 0x2#64) ∧
    outcome (completed .mrtest 2047#64 0#64 0#64) = (0#64, 0x2#64) ∧
    outcome (completed .mrtest 1373653#64 0#64 0#64) = (0#64, 0x2#64) ∧
    outcome (completed .mrtest 0x8000000000000001#64 0#64 0#64) = (0#64, 0x2#64) := by decide +kernel

theorem test_minv_with_inverse :
    outcome (completed .minv 3#64 0#64 11#64) = (4#64, 0x2#64) ∧
    outcome (completed .minv 2#64 0#64 0xFFFFFFFFFFFFFFFF#64) = (0x8000000000000000#64, 0x2#64) ∧
    outcome (completed .minv 65537#64 0#64 768614350005294468#64) = (319774156083500297#64, 0x2#64) := by
  decide +kernel
theorem test_minv_without_inverse :
    outcome (completed .minv 6#64 0#64 9#64) = (0#64, 0x22#64) ∧
    outcome (completed .minv 1#64 0#64 1#64) = (0#64, 0x22#64) ∧
    outcome (completed .minv 0#64 0#64 7#64) = (0#64, 0x22#64) := by decide +kernel

/-- 95, table 2.7's traces: (T, D0, D1, X0, X1) after one and after two iterations for a = 3, m = 11. -/
theorem test_minv_trace :
    (let w := (advanceN 1 (initialise .minv (started .minv 3#64 0#64 11#64).w)).2
     (w.t, w.d0, w.d1, w.x0, w.x1) = (3#64, 3#64, 2#64, 1#64, 8#64)) ∧
    (let w := (advanceN 2 (initialise .minv (started .minv 3#64 0#64 11#64).w)).2
     (w.t, w.d0, w.d1, w.x0, w.x1) = (1#64, 2#64, 1#64, 8#64, 4#64)) := by decide +kernel

/-- 95, table 2.6: n = 561 has Q = 35 and K = 4, and witness 2's first values are 263 and 166. -/
theorem test_mrtest_trace :
    (let w := (advanceN 6 (initialise .mrtest (started .mrtest 561#64 0#64 0#64).w)).2
     (w.q, w.k, w.x) = (35#64, 4#6, 263#64)) ∧
    (advanceN 7 (initialise .mrtest (started .mrtest 561#64 0#64 0#64).w)).2.x = 166#64 := by decide +kernel

/-- 95, table 2.1 and 2.8: STATUS and LASTCMD after errors and an overrun. -/
theorem test_regrd_status_after_errors :
    portRead .status (after (exec .madd (ready 0#64 0#64 0#64))) = 0x206#64 ∧
    portRead .status (after (exec (.regwr .cmd 0x13#64) (ready 0#64 0#64 0#64))) = 0x106#64 ∧
    portRead .cmd (after (exec (.regwr .cmd 0x13#64) (ready 0#64 0#64 0#64))) = 0x13#64 ∧
    portRead .status (after (exec .madd (started .mpow 4#64 13#64 5#64))) = 0x9#64 ∧
    portRead .cmd (after (exec .madd (started .mpow 4#64 13#64 5#64))) = 0x4#64 := by decide +kernel
theorem test_regrd_returns_the_register :
    (after (exec (.regrd .id 0#64) State.reset)).rdata = some 0x4D4F444152490001#64 ∧
    (after (exec (.regrd .opb 0#64) (ready 1#64 2#64 3#64))).rdata = some 2#64 := by decide

/-- 95, table 2.8: the write-one-to-clear of STATUS from 0x206. -/
theorem test_regwr_status_clears :
    (let s := after (exec .madd (ready 0#64 0#64 0#64))
     portRead .status (after (exec (.regwr .status 0x2#64) s)) = 0x204#64 ∧
     portRead .status (after (exec (.regwr .status 0x4#64) s)) = 0x2#64 ∧
     portRead .status (after (exec (.regwr .status 0xE#64) s)) = 0x0#64 ∧
     portRead .status (after (exec (.regwr .status 0xF30#64) s)) = 0x206#64) := by decide +kernel
theorem test_regwr_soft_reset_beats_ie :
    (after (exec (.regwr .ctrl 0x3#64) flagged)).ctrlIe = false ∧
    (after (exec (.regwr .ctrl 0x3#64) flagged)).status = Status.reset := by decide +kernel

/-- R80: `minv 3, 11` as its transactions, with two reads of STATUS while the command runs and one after. -/
def minvEvents : List Event :=
  [.xact 0xC0000000000000003#68, .xact 0xE000000000000000B#68, .xact 0xB0000000000000006#68,
    .xact 0x20000000000000000#68, .tick, .xact 0x20000000000000000#68, .complete,
    .xact 0x20000000000000000#68, .xact 0x70000000000000000#68]

theorem test_script_wait_reads_until_idle :
    followsScript minvEvents (callForm .minv 3#64 0#64 11#64) State.reset = true := by decide +kernel

/-- RESULT may not be read before BUSY has been read as 0. -/
theorem test_script_wait_does_not_end_while_busy :
    followsScript
      [.xact 0xC0000000000000003#68, .xact 0xE000000000000000B#68, .xact 0xB0000000000000006#68,
        .xact 0x20000000000000000#68, .xact 0x70000000000000000#68]
      (callForm .minv 3#64 0#64 11#64) State.reset = false := by decide +kernel

/-- R53: a load answers the least significant byte first. -/
theorem test_bus_load_is_little_endian :
    busRdata (after (exec (.regrd .id 0#64) State.reset)) =
      some [0x01, 0x00, 0x49, 0x52, 0x41, 0x44, 0x4F, 0x4D] := by decide

/-! ### Witnesses: encoding and the step -/

theorem witness_DecodeOfEncodeIsIdentity :
    (Instr.regrd .result 0#64).wf = true ∧ (Instr.regwr .id 0xFFFFFFFFFFFFFFFF#64).wf = true ∧
    Instr.minv.wf = true := by decide

theorem witness_AcceptedBytesAreTheEncoding :
    decode [0x06, 0, 0, 0, 0, 0, 0, 0] = .ok .minv ∧
    decode [0x05, 0, 0, 0, 0, 0, 0, 0, 0x0C] = .ok (.regwr .opa 5#64) ∧
    decode [0, 0, 0, 0, 0, 0, 0, 0, 0x07] = .ok (.regrd .result 0#64) := by decide +kernel

theorem witness_LegalCommandWordsAreTheSixOpcodes :
    decodeCommand 6#64 = .ok .minv ∧ decodeCommand 7#64 = .error .reservedOpcode ∧
    decodeCommand 0x11#64 = .error .reservedBits := by decide

theorem witness_TransactionWordFieldsAreReadByPosition :
    (0xFFFFFFFFFFFFFFFFF#68).toNat = 2 ^ 67 + (indexOf .result).toNat * 2 ^ 64 +
      (0xFFFFFFFFFFFFFFFF#64).toNat ∧
    (0x00000000000000005#68).toNat = 0 + (indexOf .id).toNat * 2 ^ 64 + (5#64).toNat := by decide

theorem witness_StepRunsTheDecodedInstruction :
    ({ State.reset with events := [.xact 0xC0000000000000005#68] }).events =
      .xact 0xC0000000000000005#68 :: [] ∧
    decodeXact 0xC0000000000000005#68 = .ok (.regwr .opa 5#64) ∧
    ({ State.reset with events := [.cmd 1#64, .complete] }).events = .cmd 1#64 :: [.complete] ∧
    decodeCommand 1#64 = .ok .madd := by decide

theorem witness_FetchedWordRunsNext :
    decodeTableWord 64 1 = some .madd ∧ decodeTableWord 64 6 = some .minv ∧
    decodeTableWord 68 0x70000000000000000 = some (.regrd .result 0#64) ∧
    decodeTableWord 72 0x8FFFFFFFFFFFFFFFF = some (.regwr .id 0xFFFFFFFFFFFFFFFF#64) := by decide +kernel

/-! ### Witnesses: reset and the port -/

theorem witness_SoftResetRestoresTheResetTable :
    (0x2#64).getLsbD 1 = true ∧ (0xFFFFFFFFFFFFFFFF#64).getLsbD 1 = true := by decide

theorem witness_HardResetIgnoresWhatTheHostPresents :
    (0x70000000000000000#68).getLsbD 67 = false ∧ (0xB0000000000000001#68).getLsbD 67 = true := by decide

theorem witness_ReadsHaveNoSideEffects :
    exec (.regrd .opa 0#64) (ready 1#64 2#64 3#64) =
      .next { ready 1#64 2#64 3#64 with rdata := some 1#64 } := by rfl

/-- Each bit's clause at both of its values. -/
theorem witness_StatusWriteClearsDoneErrOvrOnly :
    (0xE#64).toNat / 2 % 2 = 1 ∧ (0xE#64).toNat / 4 % 2 = 1 ∧ (0xE#64).toNat / 8 % 2 = 1 ∧
    (0xFFFFFFFFFFFFFFF1#64).toNat / 2 % 2 = 0 ∧ (0xFFFFFFFFFFFFFFF1#64).toNat / 4 % 2 = 0 ∧
    (0xFFFFFFFFFFFFFFF1#64).toNat / 8 % 2 = 0 := by decide

theorem witness_ControlWriteSetsInterruptEnable :
    (0x1#64).toNat / 2 % 2 = 0 ∧ (0xFFFFFFFFFFFFFFFC#64).toNat / 2 % 2 = 0 := by decide

theorem witness_OperandWriteIsSeenByTheNextRead :
    decodeXact 0xE0000000000000009#68 = .ok (.regwr .opm 9#64) ∧
    decodeXact 0x60000000000000000#68 = .ok (.regrd .opm 0#64) ∧
    ({ State.reset with events := [.xact 0xE0000000000000009#68, .xact 0x60000000000000000#68] }).events =
      .xact 0xE0000000000000009#68 :: .xact 0x60000000000000000#68 :: [] := by decide

theorem witness_AdapterReachesTheRegisterAtItsAddress :
    ([1, 2, 3, 4, 5, 6, 7, 8] : List Byte).length = 8 ∧
    ∀ (j : Nat) (b : Byte), ([1, 2, 3, 4, 5, 6, 7, 8] : List Byte)[j]? = some b →
      b.toNat = (0x0807060504030201#64).toNat / 2 ^ (8 * j) % 256 := by
  refine ⟨rfl, fun j b h => ?_⟩
  match j, h with
  | 0, h | 1, h | 2, h | 3, h | 4, h | 5, h | 6, h | 7, h => cases h; rfl
  | j + 8, h => simp at h

/-- The window's first and last bytes, an odd size, and the byte after the window. `base` may be 0, so no
address below it need exist. -/
theorem witness_AdapterRefusesAccessesOutsideTheInterface :
    (∃ addr, Config.base ≤ addr ∧ addr < Config.base + 64 ∧ addr % 8 ≠ 0) ∧
    (Config.base ≤ Config.base + 63 ∧ Config.base + 63 < Config.base + 64 ∧ (Config.base + 63) % 8 ≠ 0) ∧
    (Config.base ≤ Config.base ∧ Config.base < Config.base + 64 ∧ (Config.base % 8 ≠ 0 ∨ 4 ≠ 8)) ∧
    Config.base + 64 ≤ Config.base + 64 := by
  refine ⟨⟨Config.base + 1, ?_⟩, ?_, ?_, le_rfl⟩ <;> simp only [Config.base] <;> omega

theorem witness_AdapterReachesTheRegisterAtItsAddress_load :
    busRdata (after (exec (.regrd .opa 0#64) (ready 0x0807060504030201#64 0#64 0#64))) =
      some [1, 2, 3, 4, 5, 6, 7, 8] := by decide

/-! ### Witnesses: the command write -/

theorem witness_BusyCommandWriteSetsOverrunOnly :
    commandOf .msub = some 2#64 ∧ commandOf (.regwr .cmd 0xFFFFFFFFFFFFFFFF#64) = some 0xFFFFFFFFFFFFFFFF#64 ∧
    (started .madd 5#64 9#64 11#64).status.busy = true := by decide +kernel

/-- Each case at its boundary: OPC 0, 7 and 15, and the lowest and highest bits of RSV. -/
theorem witness_IllegalCommandWordRaisesIllegalCmd :
    (ready 1#64 2#64 0#64).status.busy = false ∧ (0x0#64).toNat % 16 = 0 ∧ 7 ≤ (0x7#64).toNat % 16 ∧
    7 ≤ (0xF#64).toNat % 16 ∧ (0x11#64).toNat / 16 ≠ 0 ∧ (0x8000000000000001#64).toNat / 16 ≠ 0 := by decide

theorem witness_ModulusZeroRaisesModZero :
    commandOf .madd = some 1#64 ∧ commandOf .minv = some 6#64 ∧ commandOf .mrtest = some 5#64 ∧
    (ready 7#64 2#64 0#64).status.busy = false ∧ (ready 7#64 2#64 0#64).opm = 0#64 := by decide

theorem witness_AcceptanceLatchesOperandsAndStarts :
    commandOf .minv = some 6#64 ∧ commandOf (.regwr .cmd 6#64) = some 6#64 ∧
    decodeCommand 6#64 = .ok .minv ∧ (ready 1#64 2#64 1#64).status.busy = false ∧
    (ready 1#64 2#64 1#64).opm ≠ 0#64 ∧ commandOf .mrtest = some 5#64 ∧
    decodeCommand 5#64 = .ok .mrtest := by decide

/-- MRTEST's two clauses at n = 0, 1, 2, 3 and 4: no n falls under both. -/
theorem witness_AcceptanceInitialisesWorkingRegisters :
    (ready 2#64 3#64 1#64).status.busy = false ∧ (ready 2#64 3#64 1#64).opm ≠ 0#64 ∧
    exec .mmul (ready 2#64 3#64 1#64) = .next (started .mmul 2#64 3#64 1#64) ∧
    exec .mpow (ready 2#64 3#64 1#64) = .next (started .mpow 2#64 3#64 1#64) ∧
    exec .minv (ready 2#64 3#64 1#64) = .next (started .minv 2#64 3#64 1#64) ∧
    exec .mrtest (ready 2#64 3#64 1#64) = .next (started .mrtest 2#64 3#64 1#64) ∧
    (ready 2#64 3#64 1#64).opa.toNat = 2 ∧ (3 ≤ (3#64).toNat ∧ (3#64).toNat % 2 = 1) ∧
    (0#64).toNat < 2 ∧ (1#64).toNat < 2 ∧ (4 ≤ (4#64).toNat ∧ (4#64).toNat % 2 = 0) ∧
    (started .mrtest 2#64 0#64 0#64).seq = .run .halve ∧
    (started .mrtest 4#64 0#64 0#64).seq = .run (.declared false) :=
  ⟨by decide, by decide, rfl, rfl, rfl, rfl, by decide +kernel⟩

/-! ### Witnesses: the commands, and the engine still holding them after events -/

/-- The engine after a dropped command write, an operand write and an iteration. -/
def disturbed (s : State) : State :=
  after (tick (after (exec (.regwr .opm 0#64) (after (exec .madd s)))))

theorem witness_MaddDeliversTheModularSum :
    (ready 5#64 9#64 1#64).status.busy = false ∧ (ready 5#64 9#64 1#64).opm ≠ 0#64 ∧
    holdsCommand .madd 5#64 9#64 1#64 (disturbed (started .madd 5#64 9#64 1#64)) := by
  refine ⟨by decide, by decide, ?_⟩; unfold holdsCommand; decide +kernel

theorem witness_MsubDeliversTheModularDifference :
    (ready 5#64 9#64 1#64).status.busy = false ∧ (ready 5#64 9#64 1#64).opm ≠ 0#64 ∧
    holdsCommand .msub 5#64 9#64 1#64 (disturbed (started .msub 5#64 9#64 1#64)) := by
  refine ⟨by decide, by decide, ?_⟩; unfold holdsCommand; decide +kernel

theorem witness_MmulDeliversTheModularProduct :
    (ready 5#64 9#64 1#64).status.busy = false ∧ (ready 5#64 9#64 1#64).opm ≠ 0#64 ∧
    holdsCommand .mmul 5#64 9#64 1#64 (disturbed (started .mmul 5#64 9#64 1#64)) := by
  refine ⟨by decide, by decide, ?_⟩; unfold holdsCommand; decide +kernel

theorem witness_MpowDeliversTheModularPower :
    (ready 5#64 9#64 1#64).status.busy = false ∧ (ready 5#64 9#64 1#64).opm ≠ 0#64 ∧
    holdsCommand .mpow 5#64 9#64 1#64 (disturbed (started .mpow 5#64 9#64 1#64)) := by
  refine ⟨by decide, by decide, ?_⟩; unfold holdsCommand; decide +kernel

theorem witness_MrtestDeliversTheStrongProbablePrimeVerdict :
    (ready 41#64 0#64 0#64).status.busy = false ∧
    holdsCommand .mrtest 41#64 0#64 0#64 (disturbed (started .mrtest 41#64 0#64 0#64)) ∧
    (completed .mrtest 41#64 0#64 0#64).result = 1#64 ∧ (completed .mrtest 9#64 0#64 0#64).result ≠ 1#64 := by
  refine ⟨by decide, ?_, by decide +kernel, by decide +kernel⟩; unfold holdsCommand; decide +kernel

/-- Both clauses, at m = 2 and at m = 1. -/
theorem witness_MinvDeliversTheInverseOrItsAbsence :
    (ready 1#64 0#64 2#64).status.busy = false ∧ (ready 1#64 0#64 2#64).opm ≠ 0#64 ∧
    holdsCommand .minv 1#64 0#64 2#64 (disturbed (started .minv 1#64 0#64 2#64)) ∧
    (2 ≤ (2#64).toNat ∧ Nat.gcd (1#64).toNat (2#64).toNat = 1) ∧
    (ready 1#64 0#64 1#64).opm ≠ 0#64 ∧ ¬ (2 ≤ (1#64).toNat ∧ Nat.gcd (1#64).toNat (1#64).toNat = 1) ∧
    ¬ (2 ≤ (4#64).toNat ∧ Nat.gcd (2#64).toNat (4#64).toNat = 1) := by
  refine ⟨by decide, by decide, ?_, by decide, by decide, by decide, by decide⟩
  unfold holdsCommand; decide +kernel

theorem witness_InverseIsTheUniqueResidueOrZero :
    (3 < 2 ^ 64 ∧ 1 ≤ 11 ∧ 11 < 2 ^ 64 ∧ 2 ≤ 11 ∧ Nat.gcd (3 % 11) 11 = 1) ∧
    (1 ≤ 1 ∧ ¬ (2 ≤ 1 ∧ Nat.gcd (5 % 1) 1 = 1)) ∧
    (2 ^ 64 - 1 < 2 ^ 64 ∧ 1 ≤ 2 ^ 64 - 2 ∧ Nat.gcd ((2 ^ 64 - 1) % (2 ^ 64 - 2)) (2 ^ 64 - 2) = 1) := by decide

theorem witness_EveryPrimePassesTheTest : 2 < 2 ^ 64 ∧ Nat.Prime 2 ∧ 37 < 2 ^ 64 ∧ Nat.Prime 37 := by norm_num

theorem witness_ResultsStayBelowTheModulus :
    running (started .mmul 3#64 7#64 5#64) = true ∧
    perform .complete (started .mmul 3#64 7#64 5#64) = .next (completed .mmul 3#64 7#64 5#64) ∧
    (started .mmul 3#64 7#64 5#64).w.op = opcodeOf .mmul ∧ running (started .mrtest 9#64 0#64 0#64) = true ∧
    perform .complete (started .mrtest 9#64 0#64 0#64) = .next (completed .mrtest 9#64 0#64 0#64) :=
  ⟨by decide +kernel, rfl, by decide +kernel, by decide +kernel, rfl⟩

/-! ### Witnesses: whole-machine rules -/

theorem witness_StepKeepsTheInvariant :
    Inv (started .minv 3#64 0#64 11#64) ∧
    step (started .minv 3#64 0#64 11#64) = .next (completed .minv 3#64 0#64 11#64) := ⟨by decide +kernel, rfl⟩

theorem witness_StepKeepsTheReferenceSequence :
    onSequence (started .minv 3#64 0#64 11#64) ∧
    step { started .minv 3#64 0#64 11#64 with events := [.tick] } =
      .next (after (tick (started .minv 3#64 0#64 11#64))) := by
  refine ⟨fun pos h => ⟨0, .minv, latchOperands .minv (ready 3#64 0#64 11#64), ?_⟩, rfl⟩
  cases h
  decide +kernel

theorem witness_NoFaultFromTheInvariant :
    Inv { started .mrtest 0#64 0#64 0#64 with events := [.tick, .complete] } := by decide +kernel

theorem witness_OnlyAccessesOutsideTheInterfaceAreRefused :
    step { State.reset with events := [.bus (.load (Config.base + 64) 8)] } = .refused .outsideWindow := by
  simp [step, perform, busTransaction, regAtAddress]

theorem witness_ReferenceSequenceAgreesWithCompletion :
    (started .mpow 4#64 13#64 497#64).w.op = opcodeOf .mpow ∧ (started .mpow 4#64 13#64 497#64).w.m ≠ 0#64 ∧
    (started .mrtest 9#64 0#64 0#64).w.op = opcodeOf .mrtest ∧
    (started .minv 3#64 0#64 1#64).w.op = opcodeOf .minv ∧ (started .minv 3#64 0#64 1#64).w.m ≠ 0#64 := by
  decide +kernel

/-- An aligned load of RESULT through the adapter, at the top of the window. -/
theorem resultLoad : busTransaction (.load (Config.base + 8 * 7) 8) = .ok (.regrd .result 0#64) := by
  have h8 : (Config.base + 8 * 7) % 8 = 0 := by simp only [Config.base]; omega
  have hd : (Config.base + 8 * 7 - Config.base) / 8 = 7 := by omega
  simp only [busTransaction, regAtAddress, h8, hd]
  rw [if_pos (by omega)]
  rfl

theorem witness_PlacementOfCompletionNeverChangesTheResult :
    Inv (ready 3#64 7#64 5#64) ∧ (ready 3#64 7#64 5#64).status.busy = false ∧
    (ready 3#64 7#64 5#64).opm ≠ 0#64 ∧
    exec .mmul (ready 3#64 7#64 5#64) = .next (started .mmul 3#64 7#64 5#64) ∧
    perform .complete (started .mmul 3#64 7#64 5#64) = .next (completed .mmul 3#64 7#64 5#64) ∧
    (∀ ev ∈ [Event.tick, .xact 0xB0000000000000001#68, .cmd 2#64, .bus (.load (Config.base + 8 * 7) 8)],
      ev ≠ .complete ∧ resets ev = false ∧
        ∀ access, ev = .bus access → ∃ i, busTransaction access = .ok i) := by
  refine ⟨by decide, by decide, by decide, rfl, rfl, fun ev h => ?_⟩
  simp only [List.mem_cons, List.not_mem_nil, or_false] at h
  rcases h with rfl | rfl | rfl | rfl
  · exact ⟨by decide, by decide, fun _ h => by cases h⟩
  · exact ⟨by decide, by decide, fun _ h => by cases h⟩
  · exact ⟨by decide, by decide, fun _ h => by cases h⟩
  · refine ⟨by simp, by simp only [resets, eventInstr, resultLoad]; rfl, fun _ h => ?_⟩
    cases h; exact ⟨_, resultLoad⟩

theorem witness_EveryRunEndsIdle :
    Inv { State.reset with events := [.xact 0xE0000000000000005#68, .cmd 1#64, .hardReset none,
      .bus (.load (Config.base + 8 * 7) 8)] } ∧
    ∀ access, Event.bus access ∈ [Event.xact 0xE0000000000000005#68, .cmd 1#64, .hardReset none,
      .bus (.load (Config.base + 8 * 7) 8)] → ∃ i, busTransaction access = .ok i := by
  refine ⟨by decide, fun access h => ?_⟩
  simp at h
  subst h; exact ⟨_, resultLoad⟩

theorem witness_WaitEndsWithTheBlockIdle :
    (let s := { started .madd 5#64 9#64 11#64 with
      events := [.xact 0x20000000000000000#68, .complete, .xact 0x20000000000000000#68] }
     Inv s ∧ followsScript s.events [.wait] s = true) := by decide +kernel

/-- The order of events of `minvEvents`, and `mrtest 9` with its modulus 0. -/
theorem witness_CallFormReadsTheCommandsResult :
    Inv { State.reset with events := minvEvents } ∧ State.reset.status.busy = false ∧ 11#64 ≠ 0#64 ∧
    followsScript minvEvents (callForm .minv 3#64 0#64 11#64) { State.reset with events := minvEvents } =
      true ∧
    (∀ ev ∈ minvEvents, resets ev = false) ∧
    followsScript
      [.xact 0xC0000000000000009#68, .cmd 5#64, .complete, .xact 0x20000000000000000#68,
        .xact 0x70000000000000000#68]
      (callForm .mrtest 9#64 0#64 0#64) State.reset = true := by decide +kernel

/-- One state at the start of the loop, the other an iteration further. -/
theorem witness_HiddenStateIsNeverObserved :
    (let s := started .mmul 3#64 7#64 5#64
     let t := after (tick s)
     Inv s ∧ Inv t ∧ looksAlike s t ∧ s ≠ t ∧ step s = .next (after (step s)) ∧
      step t = .next (after (step t))) := by
  refine ⟨by decide +kernel, by decide +kernel, ?_, by decide +kernel, rfl, rfl⟩
  unfold looksAlike; decide +kernel

theorem witness_ResultChangesOnlyAtCompletionOrReset :
    perform .complete (started .mmul 3#64 7#64 5#64) = .next (completed .mmul 3#64 7#64 5#64) ∧
    (completed .mmul 3#64 7#64 5#64).result ≠ (started .mmul 3#64 7#64 5#64).result ∧
    (after (perform (.hardReset none) (completed .mmul 3#64 7#64 5#64))).result ≠
      (completed .mmul 3#64 7#64 5#64).result :=
  ⟨rfl, by decide +kernel, by decide +kernel⟩

theorem witness_OperandsChangeOnlyByTheirWriteOrReset :
    (let s := started .mmul 3#64 7#64 5#64
     perform (.xact 0xC0000000000000009#68) s = .next { s with opa := 9#64 } ∧
     perform (.xact 0xD0000000000000009#68) s = .next { s with opb := 9#64 } ∧
     perform (.xact 0xE0000000000000009#68) s = .next { s with opm := 9#64 } ∧
     resets (.xact 0xC0000000000000009#68) = false ∧ resets (.xact 0xD0000000000000009#68) = false ∧
     resets (.xact 0xE0000000000000009#68) = false ∧ s.opa ≠ 9#64 ∧ s.opb ≠ 9#64 ∧ s.opm ≠ 9#64) :=
  ⟨rfl, rfl, rfl, by decide +kernel⟩

theorem witness_LastCommandIsTheLastDecodedWord :
    perform (.cmd 0x13#64) (ready 0#64 0#64 5#64) =
      .next (after (exec (.regwr .cmd 0x13#64) (ready 0#64 0#64 5#64))) ∧
    resets (.cmd 0x13#64) = false ∧ commandWritten (.cmd 0x13#64) = some 0x13#64 ∧
    commandWritten .tick = none ∧ (ready 0#64 0#64 5#64).status.busy = false ∧
    (started .madd 5#64 9#64 11#64).status.busy = true := ⟨rfl, by decide +kernel⟩

theorem witness_BusyChangesOnlyByAcceptanceCompletionOrReset :
    perform (.cmd 3#64) (ready 3#64 7#64 5#64) = .next (started .mmul 3#64 7#64 5#64) ∧
    (ready 3#64 7#64 5#64).status.busy = false ∧ (started .mmul 3#64 7#64 5#64).status.busy = true ∧
    perform .complete (started .mmul 3#64 7#64 5#64) = .next (completed .mmul 3#64 7#64 5#64) ∧
    (completed .mmul 3#64 7#64 5#64).status.busy = false :=
  ⟨rfl, by decide, by decide +kernel, rfl, by decide +kernel⟩

/-- Set by a completion and by an error; cleared by an acceptance and by a write of STATUS. -/
theorem witness_DoneChangesOnlyByItsRules :
    ((started .mmul 3#64 7#64 5#64).status.done = false ∧ (completed .mmul 3#64 7#64 5#64).status.done = true) ∧
    ((ready 3#64 7#64 0#64).status.done = false ∧
      (after (perform (.cmd 3#64) (ready 3#64 7#64 0#64))).status.done = true) ∧
    (flagged.status.done = true ∧ (after (perform (.cmd 3#64) flagged)).status.done = false) ∧
    (after (perform (.xact 0xA0000000000000002#68) flagged)).status.done = false ∧
    (after (perform (.hardReset none) flagged)).status.done = false := by decide +kernel

theorem witness_OverrunIsStickyUntilClearedOrReset :
    (let s := started .mmul 3#64 7#64 5#64
     commandWritten (.cmd 0x13#64) = some 0x13#64 ∧ s.status.busy = true ∧ s.status.ovr = false ∧
     (after (perform (.cmd 0x13#64) s)).status.ovr = true) ∧
    flagged.status.ovr = true ∧
    (after (perform (.xact 0xA0000000000000008#68) flagged)).status.ovr = false ∧
    (after (perform (.xact 0x90000000000000002#68) flagged)).status.ovr = false := by decide +kernel

/-- Set by an error, cleared by an acceptance, by bit 2 of STATUS and by a reset. -/
theorem witness_ErrorAndCodeChangeTogether :
    (commandWritten (.cmd 3#64) = some 3#64 ∧ (ready 3#64 7#64 0#64).status.busy = false ∧
      (after (perform (.cmd 3#64) (ready 3#64 7#64 0#64))).status.err ≠ (ready 3#64 7#64 0#64).status.err) ∧
    (flagged.status.busy = false ∧ flagged.status.err = true ∧
      (after (perform (.cmd 3#64) flagged)).status.err = false) ∧
    (after (perform (.xact 0xA0000000000000004#68) flagged)).status.errcode ≠ flagged.status.errcode ∧
    resets (.hardReset none) = true ∧ flagged.status.errcode = .modZero := by decide +kernel

theorem witness_PrimeIsSetOnlyByMrtest :
    (let s := started .mrtest 41#64 0#64 0#64
     perform .complete s = .next (completed .mrtest 41#64 0#64 0#64) ∧ s.status.prime = false ∧
     (completed .mrtest 41#64 0#64 0#64).status.prime = true ∧ running s = true ∧ s.w.op = opcodeOf .mrtest) ∧
    (commandWritten (.cmd 0#64) = some 0#64 ∧ (completed .mrtest 41#64 0#64 0#64).status.busy = false) ∧
    resets (.hardReset none) = true ∧ resets (.xact 0x90000000000000002#68) = true :=
  ⟨⟨rfl, by decide +kernel⟩, by decide +kernel⟩

theorem witness_NoInverseIsSetOnlyByMinv :
    (let s := started .minv 6#64 0#64 9#64
     perform .complete s = .next (completed .minv 6#64 0#64 9#64) ∧ s.status.noinv = false ∧
     (completed .minv 6#64 0#64 9#64).status.noinv = true ∧ running s = true ∧ s.w.op = opcodeOf .minv) ∧
    (commandWritten (.cmd 0#64) = some 0#64 ∧ (completed .minv 6#64 0#64 9#64).status.busy = false) ∧
    resets (.hardReset none) = true ∧ resets (.xact 0x90000000000000002#68) = true :=
  ⟨⟨rfl, by decide +kernel⟩, by decide +kernel⟩

theorem witness_InterruptEnableChangesOnlyByControlWriteOrReset :
    (after (perform (.xact 0x90000000000000001#68) State.reset)).ctrlIe ≠ State.reset.ctrlIe ∧
    (after (perform (.xact 0x90000000000000000#68) flagged)).ctrlIe ≠ flagged.ctrlIe ∧
    (after (perform (.hardReset none) flagged)).ctrlIe ≠ flagged.ctrlIe := by decide +kernel

theorem witness_RunningCommandIsUntouchedByTransactions :
    (started .mmul 3#64 7#64 5#64).status.busy = true ∧ softResets (.regwr .ctrl 0xFFFFFFFFFFFFFFFD#64) = false ∧
    softResets .madd = false ∧ softResets (.regwr .opa 0#64) = false := by decide +kernel

theorem witness_EngineIterationsAreInvisible :
    perform .tick (started .mmul 3#64 7#64 5#64) = .next (after (tick (started .mmul 3#64 7#64 5#64))) ∧
    after (tick (started .mmul 3#64 7#64 5#64)) ≠ started .mmul 3#64 7#64 5#64 ∧
    perform .tick State.reset = .next State.reset := ⟨rfl, by decide +kernel, rfl⟩

end Sys2Proof.Tests
end

section
/-! PROOFS. What an event does, said once: the completion as one record update, and the list of effects an
event can have. -/

namespace Sys2Proof.Machine

/-! ### The completion (R96) -/

/-- F of R96: the RESULT a completion of `c` computes from the latched operands. -/
def commandResult (c : Command) (w : Working) : Word :=
  match c with
  | .madd => toWord (modAdd w.a.toNat w.b.toNat w.m.toNat)
  | .msub => toWord (modSub w.a.toNat w.b.toNat w.m.toNat)
  | .mmul => toWord (modMul w.a.toNat w.b.toNat w.m.toNat)
  | .mpow => toWord (modPow w.a.toNat w.b.toNat w.m.toNat)
  | .mrtest => (BitVec.ofBool (millerRabin w.a.toNat)).setWidth 64
  | .minv => toWord (modInv w.a.toNat w.m.toNat)

/-- PRIME after a completion of `c` whose result is `res` (R34, R143). -/
def primeAfter (c : Command) (res : Word) (old : Bool) : Bool :=
  if c = .mrtest then res.getLsbD 0 else old

/-- NOINV after a completion of `c` whose result is `res` (R35, R152). -/
def noinvAfter (c : Command) (res : Word) (old : Bool) : Bool :=
  if c = .minv then res == 0#64 else old

theorem commandResult_mrtest (w : Working) :
    commandResult .mrtest w = if millerRabin w.a.toNat then 1#64 else 0#64 := by
  simp only [commandResult]; cases millerRabin w.a.toNat <;> rfl

theorem commandResult_of_same {c : Command} {w w' : Working} (h : SameCommand w w') :
    commandResult c w' = commandResult c w := by
  obtain ⟨-, ha, hb, hm⟩ := h
  simp only [commandResult, ha, hb, hm]

/-- A completion writes RESULT, BUSY, DONE, the sequencer and the command's flag, and nothing else. -/
theorem completeCommand_eq (c : Command) (s : State) :
    completeCommand c s =
      { s with
        result := commandResult c s.w
        seq := .idle
        status := { s.status with
          busy := false
          done := true
          prime := primeAfter c (commandResult c s.w) s.status.prime
          noinv := noinvAfter c (commandResult c s.w) s.status.noinv } } := by
  cases c with
  | mrtest =>
    have hp : (commandResult .mrtest s.w).getLsbD 0 = millerRabin s.w.a.toNat := by
      rw [commandResult_mrtest]; cases millerRabin s.w.a.toNat <;> rfl
    simp only [primeAfter, noinvAfter, if_true, hp]; rfl
  | _ => rfl

/-! ### Events as the host sees them -/

theorem commandWritten_of_instr {ev : Event} {i : Instr} (h : eventInstr ev = some i) :
    commandWritten ev = commandOf i := by
  simp [commandWritten, h]

theorem resets_of_instr {ev : Event} {i : Instr} (h : eventInstr ev = some i) :
    resets ev = softResets i := by
  cases ev <;> simp_all [resets, eventInstr]

/-- A command write is no soft reset. -/
theorem softResets_of_commandOf {i : Instr} {v : Word} (h : commandOf i = some v) :
    softResets i = false := by
  cases i with
  | regwr reg d => cases reg <;> simp_all [commandOf, softResets]
  | _ => rfl

/-- An event that writes CMD resets nothing. -/
theorem resets_of_commandWritten {ev : Event} {v : Word} (h : commandWritten ev = some v) :
    resets ev = false := by
  obtain ⟨i, hi, hv⟩ := Option.bind_eq_some_iff.1 h
  rw [resets_of_instr hi, softResets_of_commandOf hv]

/-! ### The effects of an event -/

/-- What event `ev` does to state `s`, one constructor for each rule that can apply. -/
inductive Effect : Event → State → State → Prop where
  /-- A command write while BUSY (R164). -/
  | overrun {ev s v} (hv : commandWritten ev = some v) (hb : s.status.busy = true) :
      Effect ev s { s with status := flagsOverrun s.status }
  /-- A command write that ends in an error (R162, R163). -/
  | raised {ev s v code} (hv : commandWritten ev = some v) (hb : s.status.busy = false)
      (hc : code = .illegalCmd ∨ code = .modZero) :
      Effect ev s (raiseError code { s with lastCmd := v })
  /-- A command write that is accepted (R95). -/
  | accepted {ev s v c} (hv : commandWritten ev = some v) (hb : s.status.busy = false)
      (hd : decodeCommand v = .ok c) (hm : c = .mrtest ∨ s.opm ≠ 0#64) :
      Effect ev s (accept c { s with lastCmd := v })
  /-- A soft or a hard reset (R190, R191). -/
  | reset {ev s} (hr : resets ev = true) (hv : commandWritten ev = none) (rdata : Option Word) (draws : Nat) :
      Effect ev s { resetBlock s with rdata := rdata, draws := draws }
  /-- A write of CTRL without a reset (R99). -/
  | control {ev s v} (hi : eventInstr ev = some (.regwr .ctrl v)) (hr : v.getLsbD 1 = false) :
      Effect ev s { s with ctrlIe := v.getLsbD 0 }
  /-- A write of STATUS (R98). -/
  | status {ev s v} (hi : eventInstr ev = some (.regwr .status v)) : Effect ev s (statusWrite v s)
  /-- A write of OPA (R93). -/
  | opa {ev s v} (hi : eventInstr ev = some (.regwr .opa v)) : Effect ev s { s with opa := v }
  /-- A write of OPB (R93). -/
  | opb {ev s v} (hi : eventInstr ev = some (.regwr .opb v)) : Effect ev s { s with opb := v }
  /-- A write of OPM (R93). -/
  | opm {ev s v} (hi : eventInstr ev = some (.regwr .opm v)) : Effect ev s { s with opm := v }
  /-- A write of ID or RESULT (R100). -/
  | ignored {ev s v} (hi : eventInstr ev = some (.regwr .id v) ∨ eventInstr ev = some (.regwr .result v)) :
      Effect ev s s
  /-- A read (R91). -/
  | read {ev s reg v} (hi : eventInstr ev = some (.regrd reg v)) :
      Effect ev s { s with rdata := some (portRead reg s) }
  /-- An iteration or a completion with no command to run (R103). -/
  | idle {ev s} (hev : ev = .tick ∨ ev = .complete) (hq : s.seq = .idle) : Effect ev s s
  /-- An iteration of the running command (R42). -/
  | iterated {s pos} (hq : s.seq = .run pos) (hf : iterationFault pos s.w = none) :
      Effect .tick s { s with seq := .run (advance (pos, s.w)).1, w := (advance (pos, s.w)).2 }
  /-- The completion of the running command (R96). -/
  | completed {s c} (hq : running s = true) (hc : runnable s.w = .ok c) :
      Effect .complete s (completeCommand c s)

theorem running_eq_false {s : State} : running s = false ↔ s.seq = .idle := by
  unfold running; cases s.seq <;> simp

theorem running_eq_true {s : State} : running s = true ↔ ∃ pos, s.seq = .run pos := by
  unfold running; cases s.seq <;> simp

/-- A command write has one of its four outcomes (R165). -/
theorem effect_of_commandWrite {ev : Event} {v : Word} (hv : commandWritten ev = some v) (s : State) :
    Effect ev s (commandWrite v s) := by
  obtain ⟨hb, he⟩ | ⟨hb, -, he⟩ | ⟨hb, -, he⟩ | ⟨hb, c, hd, hm, he⟩ := commandWrite_cases v s
  · rw [he]; exact .overrun hv hb
  · rw [he]; exact .raised hv hb (.inl rfl)
  · rw [he]; exact .raised hv hb (.inr rfl)
  · rw [he]; exact .accepted hv hb hd hm

/-- The effect of a host transaction. -/
theorem effect_of_exec {ev : Event} {i : Instr} {s t : State} (hi : eventInstr ev = some i)
    (h : exec i s = .next t) : Effect ev s t := by
  obtain ⟨v, hv, he⟩ | ⟨hv, ⟨hr, he⟩ | ⟨-, hother⟩⟩ := exec_cases i s
  · cases he.symm.trans h
    exact effect_of_commandWrite ((commandWritten_of_instr hi).trans hv) s
  · cases he.symm.trans h
    exact .reset ((resets_of_instr hi).trans hr) ((commandWritten_of_instr hi).trans hv) _ _
  · obtain ⟨v, rfl, hr, he⟩ | ⟨v, rfl, he⟩ | ⟨v, rfl, he⟩ | ⟨v, rfl, he⟩ | ⟨v, rfl, he⟩ | ⟨v, hi', he⟩ |
      ⟨reg, v, rfl, he⟩ := hother <;> cases he.symm.trans h
    · exact .control hi hr
    · exact .status hi
    · exact .opa hi
    · exact .opb hi
    · exact .opm hi
    · exact .ignored (hi'.imp (· ▸ hi) (· ▸ hi))
    · exact .read hi

/-- Every event that leads on has one of the effects. -/
theorem effect_of_perform {ev : Event} {s t : State} (h : perform ev s = .next t) : Effect ev s t := by
  obtain ⟨i, hi, he⟩ | ⟨rfl, ht⟩ | ⟨rfl, hq, hc⟩ | ⟨rfl, hq, rfl⟩ | ⟨presented, rfl, rfl⟩ := perform_cases h
  · exact effect_of_exec hi he
  · obtain ⟨hq, rfl⟩ | ⟨pos, hq, hf, rfl⟩ := tick_cases ht
    · exact .idle (.inl rfl) hq
    · exact .iterated hq hf
  · obtain ⟨c, hok, rfl⟩ := complete_eq_next.1 hc
    exact .completed hq hok
  · exact .idle (.inr rfl) (running_eq_false.1 hq)
  · rw [hardReset_eq]
    exact .reset rfl rfl _ _

/-- A step is the performance of one event, the list being at its rest; with no event left it is a
completion (R97). -/
theorem step_eq_perform (s : State) : ∃ ev rest, step s = perform ev (beginEvent rest s) := by
  unfold step
  cases s.events with
  | nil => exact ⟨.complete, [], rfl⟩
  | cons ev rest => exact ⟨ev, rest, rfl⟩

end Sys2Proof.Machine
end

section
/-! PROOFS. What every step keeps (R41, R44): the invariant of STATUS and of the engine, and the reference
sequence. -/

namespace Sys2Proof.Machine

/-! ### The invariant -/

theorem inv_beginEvent {rest : List Event} {s : State} (h : Inv s) : Inv (beginEvent rest s) := h

theorem idle_of_not_busy {s : State} (h : statusInv s) (hb : s.status.busy = false) : s.seq = .idle :=
  running_eq_false.1 (h.1 ▸ hb)

theorem engineInv_of_idle {s : State} (h : s.seq = .idle) : engineInv s = true := by
  simp [engineInv, h]

theorem engineInv_of_run {s : State} {pos : Position} (h : s.seq = .run pos) :
    engineInv s = true ↔ iterationFault pos s.w = none := by
  simp [engineInv, h]

/-- The command that a state with a running engine can complete (R96). -/
theorem runnable_of_engineInv {s : State} (h : engineInv s = true) (hr : running s = true) :
    ∃ c, runnable s.w = .ok c := by
  obtain ⟨pos, hq⟩ := running_eq_true.1 hr
  exact (iterationFault_eq_none.1 ((engineInv_of_run hq).1 h)).1

/-- What an acceptance starts is defined: the modulus was checked (R94, R162). -/
theorem engineInv_accept {c : Command} {s : State} (hm : c = .mrtest ∨ s.opm ≠ 0#64) :
    engineInv (accept c s) = true :=
  (engineInv_of_run rfl).2 (initialise_defined (runnable_eq_ok.2 ⟨rfl, hm⟩))

theorem inv_resetBlock (s : State) (rdata : Option Word) (draws : Nat) :
    Inv { resetBlock s with rdata := rdata, draws := draws } := by
  simp [Inv, statusInv, engineInv, running, Status.reset]

theorem inv_raiseError {code : ErrCode} {s : State} (h : Inv s) (hb : s.status.busy = false)
    (hc : code = .illegalCmd ∨ code = .modZero) : Inv (raiseError code s) := by
  have hq := idle_of_not_busy h.1 hb
  refine ⟨?_, engineInv_of_idle hq⟩
  simp [statusInv, running, hq, hb, hc]

theorem inv_accept {c : Command} {s : State} (hm : c = .mrtest ∨ s.opm ≠ 0#64) : Inv (accept c s) := by
  refine ⟨?_, engineInv_accept hm⟩
  simp [statusInv, running]

theorem inv_statusWrite {v : Word} {s : State} (h : Inv s) : Inv (statusWrite v s) := by
  obtain ⟨⟨hb, hbusy, herr, hnone, hrest⟩, heng⟩ := h
  refine ⟨⟨hb, fun hb' => ?_, ?_, ?_, hrest⟩, heng⟩
  · obtain ⟨hd, he, hcode, hflags⟩ := hbusy hb'
    simp [hd, he, hcode, hflags]
  all_goals
    rw [statusWrite_status, flagsCleared_err, flagsCleared_errcode]
    cases v.getLsbD 2 with
    | true => simp
    | false => simpa

theorem inv_completeCommand {c : Command} {s : State} (h : Inv s) (hr : running s = true) :
    Inv (completeCommand c s) := by
  obtain ⟨⟨hb, hbusy, -⟩, -⟩ := h
  obtain ⟨-, herr, hcode, hprime, hnoinv⟩ := hbusy (hb.trans hr)
  rw [completeCommand_eq]
  refine ⟨?_, rfl⟩
  simp only [statusInv, running, primeAfter, noinvAfter, herr, hcode, hprime, hnoinv]
  cases c with
  | mrtest => rw [commandResult_mrtest]; cases millerRabin s.w.a.toNat <;> simp
  | _ => simp

theorem Effect.inv {ev : Event} {s t : State} (he : Effect ev s t) (h : Inv s) : Inv t := by
  cases he with
  | raised hv hb hc => exact inv_raiseError h hb hc
  | accepted hv hb hd hm => exact inv_accept hm
  | reset hr hv rdata draws => exact inv_resetBlock s rdata draws
  | status hi => exact inv_statusWrite h
  | iterated hq hf =>
    refine ⟨?_, (engineInv_of_run rfl).2 (advance_defined hf)⟩
    have hr : running s = true := running_eq_true.2 ⟨_, hq⟩
    obtain ⟨⟨hb, hflags⟩, -⟩ := h
    exact ⟨hb.trans hr, hflags⟩
  | completed hq hc => exact inv_completeCommand h hq
  | _ => exact h

theorem perform_inv {ev : Event} {s t : State} (h : Inv s) (hp : perform ev s = .next t) : Inv t :=
  (effect_of_perform hp).inv h

theorem step_inv {s t : State} (h : Inv s) (hs : step s = .next t) : Inv t := by
  obtain ⟨ev, rest, he⟩ := step_eq_perform s
  exact perform_inv (inv_beginEvent h) (he.symm.trans hs)

/-! ### The reference sequence -/

theorem onSequence_of_idle {s : State} (h : s.seq = .idle) : onSequence s := by
  intro pos hq; rw [h] at hq; cases hq

theorem onSequence_accept (c : Command) (s : State) : onSequence (accept c s) := by
  intro pos hq
  cases hq
  obtain ⟨ho, ha, hb, hm⟩ := initialise_same c (latchOperands c s)
  exact ⟨0, c, latchOperands c s, ho, ho.symm, ha.symm, hb.symm, hm.symm, rfl⟩

/-- One more iteration of a sequence is a state of that sequence. -/
theorem onSequence_iterated {s : State} {pos : Position} (h : onSequence s) (hq : s.seq = .run pos) :
    onSequence { s with seq := .run (advance (pos, s.w)).1, w := (advance (pos, s.w)).2 } := by
  intro pos' hq'
  cases hq'
  obtain ⟨k, c, w, hop, ho, ha, hb, hm, hk⟩ := h pos hq
  obtain ⟨ho', ha', hb', hm'⟩ := advance_same (pos, s.w)
  refine ⟨k + 1, c, w, ho'.trans hop, ho.trans ho'.symm, ha.trans ha'.symm, hb.trans hb'.symm,
    hm.trans hm'.symm, ?_⟩
  rw [advanceN_succ, hk]

theorem Effect.onSequence {ev : Event} {s t : State} (he : Effect ev s t) (h : onSequence s) :
    Machine.onSequence t := by
  cases he with
  | accepted hv hb hd hm => exact onSequence_accept _ _
  | reset hr hv rdata draws => exact onSequence_of_idle rfl
  | iterated hq hf => exact onSequence_iterated h hq
  | completed hq hc => rw [completeCommand_eq]; exact onSequence_of_idle rfl
  | _ => exact h

/-! ### The obligations -/

/-- Settles O37: each effect of an event keeps the invariant. -/
theorem stepKeepsTheInvariant : Obligations.StepKeepsTheInvariant := fun _ _ => step_inv

/-- Settles O38: an acceptance starts the sequence, an iteration goes on with it, and no other effect
touches the engine in RUN. -/
theorem stepKeepsTheReferenceSequence : Obligations.StepKeepsTheReferenceSequence := by
  intro s t h hs
  obtain ⟨ev, rest, he⟩ := step_eq_perform s
  exact (effect_of_perform (he.symm.trans hs)).onSequence h

/-- Settles O36: at reset the sequencer is IDLE and every flag is clear. -/
theorem invariantHoldsAtReset : Obligations.InvariantHoldsAtReset :=
  ⟨by decide, onSequence_of_idle rfl⟩

end Sys2Proof.Machine
end

section
/-! PROOFS. The host never observes hidden state (R42): an event does alike to two states that look alike. -/

namespace Sys2Proof.Machine

/-! ### States that look alike -/

theorem looksAlike_refl (s : State) : looksAlike s s := ⟨rfl, fun _ => ⟨rfl, rfl, rfl, rfl⟩, rfl⟩

/-- Two states look alike when they differ in the engine alone, and run the same command if any. -/
theorem looksAlike_iff {s t : State} :
    looksAlike s t ↔
      ∃ q w, t = { s with seq := q, w := w } ∧ running s = running t ∧
        (running s = true → SameCommand s.w t.w) := by
  constructor
  · rintro ⟨hr, hw, ht⟩
    refine ⟨t.seq, t.w, ht.symm, hr, fun h => ?_⟩
    obtain ⟨ho, ha, hb, hm⟩ := hw h
    exact ⟨ho.symm, ha.symm, hb.symm, hm.symm⟩
  · rintro ⟨q, w, rfl, hr, hw⟩
    refine ⟨hr, fun h => ?_, rfl⟩
    obtain ⟨ho, ha, hb, hm⟩ := hw h
    exact ⟨ho.symm, ha.symm, hb.symm, hm.symm⟩

/-- States that look alike show the same at the port and on the interrupt line (R42). -/
theorem looksAlike_shows {s t : State} (h : looksAlike s t) :
    s.rdata = t.rdata ∧ irq s = irq t ∧ ∀ reg : PortReg, portRead reg s = portRead reg t := by
  obtain ⟨q, w, rfl, -, -⟩ := looksAlike_iff.1 h
  exact ⟨rfl, rfl, fun reg => by cases reg <;> rfl⟩

theorem looksAlike_beginEvent {s t : State} (h : looksAlike s t) (rest : List Event) :
    looksAlike (beginEvent rest s) (beginEvent rest t) := by
  obtain ⟨q, w, rfl, halike⟩ := looksAlike_iff.1 h
  exact looksAlike_iff.2 ⟨q, w, rfl, halike⟩

/-! ### What each event does to them -/

/-- Whatever ran before, an acceptance runs the same command on the same operands. -/
theorem looksAlike_accept {s t : State} (h : looksAlike s t) (c : Command) :
    looksAlike (accept c s) (accept c t) := by
  obtain ⟨q, w, rfl, -, -⟩ := looksAlike_iff.1 h
  refine looksAlike_iff.2 ⟨_, _, rfl, rfl, fun _ => ?_⟩
  obtain ⟨ho, ha, hb, hm⟩ := initialise_same c (latchOperands c s)
  obtain ⟨ho', ha', hb', hm'⟩ := initialise_same c (latchOperands c { s with seq := q, w := w })
  exact ⟨ho'.trans ho.symm, ha'.trans ha.symm, hb'.trans hb.symm, hm'.trans hm.symm⟩

theorem looksAlike_commandWrite {s t : State} (h : looksAlike s t) (v : Word) :
    looksAlike (commandWrite v s) (commandWrite v t) := by
  obtain ⟨q, w, ht, halike⟩ := looksAlike_iff.1 h
  have hst : t.status = s.status := by rw [ht]
  have hopm : t.opm = s.opm := by rw [ht]
  obtain ⟨hb, he⟩ | ⟨hb, ⟨e, hd⟩, he⟩ | ⟨hb, ⟨c, hd, hc, hm⟩, he⟩ | ⟨hb, c, hd, hm, he⟩ :=
    commandWrite_cases v s <;> rw [he] <;> rw [← hst] at hb
  · rw [commandWrite_busy hb]
    subst ht; exact looksAlike_iff.2 ⟨q, w, rfl, halike⟩
  · rw [commandWrite_illegal hb hd]
    subst ht; exact looksAlike_iff.2 ⟨q, w, rfl, halike⟩
  · rw [commandWrite_modZero hb hd ((needsModulus_iff c).2 hc) (hopm.trans hm)]
    subst ht; exact looksAlike_iff.2 ⟨q, w, rfl, halike⟩
  · rw [commandWrite_accepted hb hd (hm.imp_right hopm.trans_ne)]
    refine looksAlike_accept ?_ c
    subst ht; exact looksAlike_iff.2 ⟨q, w, rfl, halike⟩

/-- A reset forgets the engine. -/
theorem resetBlock_of_looksAlike {s t : State} (h : looksAlike s t) : resetBlock t = resetBlock s := by
  obtain ⟨q, w, rfl, -, -⟩ := looksAlike_iff.1 h; rfl

theorem hardReset_of_looksAlike {s t : State} (h : looksAlike s t) (presented : Option XactWord) :
    hardReset presented t = hardReset presented s := by
  have hdraws : t.draws = s.draws := by obtain ⟨q, w, rfl, -, -⟩ := looksAlike_iff.1 h; rfl
  simp only [hardReset, resetBlock_of_looksAlike h, hdraws]

theorem looksAlike_portWrite {s t : State} (h : looksAlike s t) (reg : PortReg) (v : Word) :
    looksAlike (portWrite reg v s) (portWrite reg v t) := by
  obtain ⟨q, w, rfl, halike⟩ := looksAlike_iff.1 h
  cases reg with
  | cmd => exact looksAlike_commandWrite h v
  | ctrl =>
    simp only [portWrite, ctrlWrite]
    split
    · rw [resetBlock_of_looksAlike h]; exact looksAlike_refl _
    · exact looksAlike_iff.2 ⟨q, w, rfl, halike⟩
  | _ => exact looksAlike_iff.2 ⟨q, w, rfl, halike⟩

theorem looksAlike_exec {s t s' t' : State} {i : Instr} (h : looksAlike s t) (hs : exec i s = .next s')
    (ht : exec i t = .next t') : looksAlike s' t' := by
  cases i with
  | regrd reg d =>
    cases hs; cases ht
    obtain ⟨-, -, hread⟩ := looksAlike_shows h
    rw [hread reg]
    obtain ⟨q, w, rfl, halike⟩ := looksAlike_iff.1 h
    exact looksAlike_iff.2 ⟨q, w, rfl, halike⟩
  | regwr reg v => cases hs; cases ht; exact looksAlike_portWrite h reg v
  | _ => cases hs; cases ht; exact looksAlike_commandWrite h _

theorem looksAlike_tick {s t s' t' : State} (h : looksAlike s t) (hs : tick s = .next s')
    (ht : tick t = .next t') : looksAlike s' t' := by
  obtain ⟨q, w, rfl, hr, hw⟩ := looksAlike_iff.1 h
  obtain ⟨hq, rfl⟩ | ⟨pos, hq, -, rfl⟩ := tick_cases hs <;>
    obtain ⟨hq', rfl⟩ | ⟨pos', hq', -, rfl⟩ := tick_cases ht
  · exact h
  · rw [running_eq_false.2 hq, running_eq_true.2 ⟨_, hq'⟩] at hr; cases hr
  · rw [running_eq_false.2 hq', running_eq_true.2 ⟨_, hq⟩] at hr; cases hr
  · refine looksAlike_iff.2 ⟨_, _, rfl, rfl, fun _ => ?_⟩
    obtain ⟨ho, ha, hb, hm⟩ := advance_same (pos, s.w)
    exact SameCommand.trans ⟨ho.symm, ha.symm, hb.symm, hm.symm⟩
      ((hw (running_eq_true.2 ⟨_, hq⟩)).trans (advance_same (pos', w)))

/-- A completion depends on the latched opcode and operands alone. -/
theorem looksAlike_complete {s t s' t' : State} (h : looksAlike s t)
    (hs : completeIfRunning s = .next s') (ht : completeIfRunning t = .next t') : looksAlike s' t' := by
  obtain ⟨q, w, rfl, hr, hw⟩ := looksAlike_iff.1 h
  unfold completeIfRunning at hs ht
  cases hq : s.seq with
  | idle =>
    obtain rfl : q = .idle := running_eq_false.1 (hr.symm.trans (running_eq_false.2 hq))
    rw [hq] at hs
    cases hs; cases ht; exact h
  | run pos =>
    have hrun := running_eq_true.2 ⟨pos, hq⟩
    obtain ⟨pos', rfl⟩ := running_eq_true.1 (hr.symm.trans hrun)
    rw [hq] at hs
    obtain ⟨c, hc, rfl⟩ := complete_eq_next.1 hs
    obtain ⟨c', hc', rfl⟩ := complete_eq_next.1 ht
    obtain rfl : c' = c := by
      rw [runnable_of_same (hw hrun), hc] at hc'
      cases hc'; rfl
    simp only [completeCommand_eq, commandResult_of_same (hw hrun)]
    exact looksAlike_iff.2 ⟨_, _, rfl, rfl, fun h => by cases h⟩

theorem looksAlike_perform {ev : Event} {s t s' t' : State} (h : looksAlike s t)
    (hs : perform ev s = .next s') (ht : perform ev t = .next t') : looksAlike s' t' := by
  cases ev with
  | xact x => exact looksAlike_exec h hs ht
  | cmd v => exact looksAlike_exec h hs ht
  | bus access =>
    simp only [perform] at hs ht
    cases hb : busTransaction access with
    | ok i => rw [hb] at hs ht; exact looksAlike_exec h hs ht
    | error r => rw [hb] at hs; cases hs
  | tick => exact looksAlike_tick h hs ht
  | complete => exact looksAlike_complete h hs ht
  | hardReset presented =>
    cases hs; cases ht
    rw [hardReset_of_looksAlike h]; exact looksAlike_refl _

theorem looksAlike_step {s t s' t' : State} (h : looksAlike s t) (hs : step s = .next s')
    (ht : step t = .next t') : looksAlike s' t' := by
  have hev : t.events = s.events := by obtain ⟨q, w, rfl, -, -⟩ := looksAlike_iff.1 h; rfl
  simp only [step, hev] at hs ht
  cases he : s.events with
  | nil => rw [he] at hs ht; exact looksAlike_complete (looksAlike_beginEvent h _) hs ht
  | cons ev rest => rw [he] at hs ht; exact looksAlike_perform (looksAlike_beginEvent h rest) hs ht

/-- Settles O46: looking alike is kept by every pair of steps, and it fixes all that the host sees. -/
theorem hiddenStateIsNeverObserved : Obligations.HiddenStateIsNeverObserved := by
  intro s t s' t' _ _ h hs ht
  have h' := looksAlike_step h hs ht
  exact ⟨h', looksAlike_shows h'⟩

end Sys2Proof.Machine
end

section
/-! PROOFS. Fixed words, the reset table (R43, R190, R191), the interrupt line (R38) and the engine's
iterations (R42). -/

namespace Sys2Proof.Machine

/-! ### Fixed words and the reset state -/

/-- Settles O1: each clause is one evaluation of the decoder. -/
theorem specWordsDecodeAsWritten : Obligations.SpecWordsDecodeAsWritten := by
  unfold Obligations.SpecWordsDecodeAsWritten
  and_intros <;> rfl

/-- Settles O8, by evaluating the port at the reset state. -/
theorem resetHoldsTheResetTable : Obligations.ResetHoldsTheResetTable := by
  unfold Obligations.ResetHoldsTheResetTable
  decide

/-! ### Resets -/

/-- Settles O9: a CTRL write with bit 1 set is `resetBlock`. -/
theorem softResetRestoresTheResetTable : Obligations.SoftResetRestoresTheResetTable := by
  intro s v hv
  refine ⟨resetBlock s, ?_, rfl, rfl, rfl⟩
  simp only [exec_regwr, portWrite, ctrlWrite, hv, if_true]

/-- A hard reset leaves the port's output, unless a read was presented (R190). -/
theorem hardReset_rdata (presented : Option XactWord) (s : State) :
    (hardReset presented s).rdata = s.rdata ∨ ∃ x, presented = some x ∧ weField x = false := by
  cases presented with
  | none => exact .inl rfl
  | some x =>
    cases hx : weField x with
    | true => simp [hardReset, hx]
    | false => exact .inr ⟨x, rfl, hx⟩

/-- Settles O10: `hardReset` is `resetBlock` but for what a presented read leaves on the port. -/
theorem hardResetIgnoresWhatTheHostPresents : Obligations.HardResetIgnoresWhatTheHostPresents := by
  intro s presented
  refine ⟨hardReset presented s, rfl, ?_, hardReset_rdata presented s⟩
  rw [hardReset_eq]
  rfl

/-! ### The interrupt line -/

theorem ctrlWord_getLsbD_zero (ie : Bool) : (ctrlWord ie).getLsbD 0 = ie := by
  cases ie <;> rfl

theorem statusWord_getLsbD_one (st : Status) : (statusWord st).getLsbD 1 = st.done := by
  simp only [statusWord, BitVec.getLsbD_append]
  simp

theorem statusWord_getLsbD_three (st : Status) : (statusWord st).getLsbD 3 = st.ovr := by
  simp only [statusWord, BitVec.getLsbD_append]
  simp

/-- Settles O57: IE, DONE and OVR stand where R91 puts them. -/
theorem interruptFollowsEnableAndDoneOrOverrun : Obligations.InterruptFollowsEnableAndDoneOrOverrun := by
  intro s
  simp only [portRead, ctrlWord_getLsbD_zero, statusWord_getLsbD_one, statusWord_getLsbD_three, irq]

/-! ### Engine iterations -/

/-- Settles O60: in RUN an iteration is `advance`, which keeps the latched command. -/
theorem engineIterationsAreInvisible : Obligations.EngineIterationsAreInvisible := by
  intro s t h
  obtain ⟨-, rfl⟩ | ⟨pos, hq, -, rfl⟩ := tick_cases h
  · exact ⟨rfl, rfl, rfl, rfl, rfl, rfl⟩
  · have hr : running s = true := running_eq_true.2 ⟨pos, hq⟩
    exact ⟨rfl, hr.symm, advance_same (pos, s.w)⟩

end Sys2Proof.Machine
end

section
/-! PROOFS. Which events may change each register and each flag (R21-R24, R28, R30-R35). Every statement is
read off the list of an event's effects. -/

namespace Sys2Proof.Machine

/-! ### RESULT, the operands and LASTCMD -/

/-- Settles O47: of the effects only a completion and a reset write RESULT. -/
theorem resultChangesOnlyAtCompletionOrReset : Obligations.ResultChangesOnlyAtCompletionOrReset := by
  intro ev s t h hne
  cases effect_of_perform h with
  | completed hq hc => exact .inl ⟨rfl, hq⟩
  | reset hr => exact .inr hr
  | _ => exact absurd rfl hne

/-- Settles O48: of the effects without a reset only a write of an operand register stores into it. -/
theorem operandsChangeOnlyByTheirWriteOrReset : Obligations.OperandsChangeOnlyByTheirWriteOrReset := by
  intro ev s t h hnr
  cases effect_of_perform h with
  | reset hr => simp [hr] at hnr
  | opa hi => exact ⟨fun _ => hi, fun h => absurd rfl h, fun h => absurd rfl h⟩
  | opb hi => exact ⟨fun h => absurd rfl h, fun _ => hi, fun h => absurd rfl h⟩
  | opm hi => exact ⟨fun h => absurd rfl h, fun h => absurd rfl h, fun _ => hi⟩
  | completed hq hc => rw [completeCommand_eq]; simp
  | _ => simp

/-- Settles O49: every command write but an overrun records its word, and no other effect but a reset
touches LASTCMD. -/
theorem lastCommandIsTheLastDecodedWord : Obligations.LastCommandIsTheLastDecodedWord := by
  intro ev s t h hnr
  cases effect_of_perform h with
  | overrun hv hb => simp [hv, hb]
  | raised hv hb => simp [hv, hb]
  | accepted hv hb => simp [hv, hb]
  | reset hr => simp [hr] at hnr
  | control hi | status hi | opa hi | opb hi | opm hi | read hi => simp [commandWritten_of_instr hi, commandOf]
  | ignored hi =>
    obtain hi | hi := hi <;> simp [commandWritten_of_instr hi, commandOf]
  | idle hev => obtain rfl | rfl := hev <;> rfl
  | iterated => rfl
  | completed hq hc => rw [completeCommand_eq]; rfl

/-! ### The flags -/

/-- A command write is no write of STATUS. -/
theorem not_statusWrite_of_commandWritten {ev : Event} {v : Word} (h : commandWritten ev = some v)
    (u : Word) : eventInstr ev ≠ some (.regwr .status u) := by
  intro hi
  rw [commandWritten_of_instr hi] at h
  cases h

/-- What an event does to the flags, with what the rules of R30 to R35 ask about the event: an `Effect` seen
through STATUS alone. -/
inductive FlagEffect (ev : Event) (s t : State) : Prop where
  /-- A command write while BUSY (R164). -/
  | overrun (v : Word) (hv : commandWritten ev = some v) (hb : s.status.busy = true)
      (ht : t.status = flagsOverrun s.status)
  /-- A command write that ends in an error (R161). -/
  | raised (v : Word) (code : ErrCode) (hv : commandWritten ev = some v) (hb : s.status.busy = false)
      (hc : code = .illegalCmd ∨ code = .modZero) (ht : t.status = flagsRaised code s.status)
  /-- A command write that is accepted (R95). -/
  | accepted (v : Word) (c : Command) (hv : commandWritten ev = some v) (hb : s.status.busy = false)
      (hd : decodeCommand v = .ok c) (ht : t.status = flagsAccepted s.status)
  /-- A reset (R43). -/
  | reset (hr : resets ev = true) (hv : commandWritten ev = none) (ht : t.status = Status.reset)
  /-- A write of STATUS (R98). -/
  | cleared (v : Word) (hi : eventInstr ev = some (.regwr .status v)) (hv : commandWritten ev = none)
      (hr : resets ev = false) (ht : t.status = flagsCleared v s.status)
  /-- The completion of the running command (R96). -/
  | completed (c : Command) (hev : ev = .complete) (hq : running s = true) (ho : s.w.op = opcodeOf c)
      (ht : t = completeCommand c s)
  /-- Every other event. -/
  | kept (hv : commandWritten ev = none) (hr : resets ev = false)
      (hs : ∀ v, eventInstr ev ≠ some (.regwr .status v)) (hc : ev = .complete → running s = false)
      (ht : t.status = s.status)

/-- A host transaction that writes neither CMD nor STATUS and resets nothing leaves the flags. -/
theorem FlagEffect.of_instr {ev : Event} {i : Instr} {s t : State} (hi : eventInstr ev = some i)
    (hv : commandOf i = none) (hr : softResets i = false) (hs : ∀ v, i ≠ .regwr .status v)
    (ht : t.status = s.status) : FlagEffect ev s t := by
  refine .kept ((commandWritten_of_instr hi).trans hv) ((resets_of_instr hi).trans hr) ?_ ?_ ht
  · intro v hv'
    rw [hi] at hv'
    exact hs v (Option.some.inj hv')
  · rintro rfl; cases hi

theorem flagEffect_of_perform {ev : Event} {s t : State} (h : perform ev s = .next t) :
    FlagEffect ev s t := by
  cases effect_of_perform h with
  | overrun hv hb => exact .overrun _ hv hb rfl
  | raised hv hb hc => exact .raised _ _ hv hb hc rfl
  | accepted hv hb hd => exact .accepted _ _ hv hb hd rfl
  | reset hr hv => exact .reset hr hv rfl
  | status hi => exact .cleared _ hi (commandWritten_of_instr hi) (resets_of_instr hi) rfl
  | control hi hr => exact .of_instr hi rfl hr (by simp) rfl
  | opa hi | opb hi | opm hi | read hi => exact .of_instr hi rfl rfl (by simp) rfl
  | ignored hi => obtain hi | hi := hi <;> exact .of_instr hi rfl rfl (by simp) rfl
  | idle hev hq =>
    obtain rfl | rfl := hev <;> exact .kept rfl rfl (fun _ => nofun) (fun _ => running_eq_false.2 hq) rfl
  | iterated hq hf => exact .kept rfl rfl (fun _ => nofun) nofun rfl
  | completed hq hc => exact .completed _ rfl hq (runnable_eq_ok.1 hc).1 rfl

/-- Settles O50: an acceptance sets BUSY and latches the operands; a completion and a reset clear it. -/
theorem busyChangesOnlyByAcceptanceCompletionOrReset :
    Obligations.BusyChangesOnlyByAcceptanceCompletionOrReset := by
  intro ev s t h
  cases effect_of_perform h with
  | accepted hv hb hd => exact ⟨fun _ _ => ⟨_, _, hv, hd, rfl, initialise_same _ _⟩, by simp [hb]⟩
  | reset hr => exact ⟨by simp [Status.reset], fun _ _ => .inr hr⟩
  | completed => rw [completeCommand_eq]; simp
  | _ => simp_all

/-- Settles O51: each effect on the flags that moves DONE is one that R31 names. -/
theorem doneChangesOnlyByItsRules : Obligations.DoneChangesOnlyByItsRules := by
  intro ev s t h
  cases flagEffect_of_perform h with
  | overrun v hv hb ht => simp_all
  | raised v code hv hb hc ht =>
    exact ⟨fun _ _ => .inr ⟨v, hv, hb, by simp [ht]⟩, by simp [ht]⟩
  | accepted v c hv hb hd ht =>
    exact ⟨by simp [ht], fun _ _ => .inl ⟨v, c, hv, hd, hb, by simp [ht]⟩⟩
  | reset hr hv ht => exact ⟨by simp [ht, Status.reset], fun _ _ => .inr (.inr hr)⟩
  | cleared v hi hv hr ht =>
    refine ⟨by simp_all, fun hs hd => .inr (.inl ⟨v, hi, ?_⟩)⟩
    rw [ht, flagsCleared_done, hs] at hd
    simpa using hd
  | completed c hev hq ho ht => exact ⟨fun _ _ => .inl ⟨hev, hq⟩, by simp [ht, completeCommand_eq]⟩
  | kept hv hr hs hc ht => simp_all

/-- Settles O52: an error sets ERR with its code, and the other effects that touch either clear both. -/
theorem errorAndCodeChangeTogether : Obligations.ErrorAndCodeChangeTogether := by
  intro ev s t h
  cases flagEffect_of_perform h with
  | overrun v hv hb ht =>
    simp [ht, hb, not_statusWrite_of_commandWritten hv, resets_of_commandWritten hv]
  | raised v code hv hb hc ht =>
    simp [ht, hv, hb, hc, not_statusWrite_of_commandWritten hv, resets_of_commandWritten hv]
  | accepted v c hv hb hd ht => simp [ht, hv, hb]
  | reset hr hv ht => simp [ht, hr, hv, Status.reset]
  | cleared v hi hv hr ht =>
    cases h2 : v[2] <;> simp [ht, hi, hv, hr, h2]
  | completed c hev hq ho ht =>
    subst hev ht
    simp [completeCommand_eq, commandWritten, eventInstr, resets]
  | kept hv hr hs hc ht => simp [ht, hv, hr, hs]

/-- Settles O53: an overrun sets OVR, bit 3 of STATUS and a reset clear it, and an acceptance keeps it. -/
theorem overrunIsStickyUntilClearedOrReset : Obligations.OverrunIsStickyUntilClearedOrReset := by
  intro ev s t h
  cases flagEffect_of_perform h with
  | overrun v hv hb ht =>
    simp [ht, hv, hb, not_statusWrite_of_commandWritten hv, resets_of_commandWritten hv]
  | raised v code hv hb hc ht =>
    simp_all [not_statusWrite_of_commandWritten hv, resets_of_commandWritten hv]
  | accepted v c hv hb hd ht =>
    simp_all [not_statusWrite_of_commandWritten hv, resets_of_commandWritten hv]
  | reset hr hv ht => simp [ht, hr, hv, Status.reset]
  | cleared v hi hv hr ht =>
    cases h3 : v[3] <;> simp_all
  | completed c hev hq ho ht =>
    subst hev ht
    simp_all [completeCommand_eq, commandWritten, eventInstr, resets]
  | kept hv hr hs hc ht => simp_all

/-- PRIME and NOINV are set at a completion alone; every decoded command and every reset clears both
(R34, R35). -/
theorem resultFlags_cases {ev : Event} {s t : State} (h : perform ev s = .next t) :
    (∃ c, ev = .complete ∧ running s = true ∧ s.w.op = opcodeOf c ∧ t = completeCommand c s) ∨
    ((ev = .complete → running s = false) ∧
      (t.status.prime = true → s.status.prime = true) ∧ (t.status.noinv = true → s.status.noinv = true) ∧
      (∀ v, commandWritten ev = some v → s.status.busy = false →
        t.status.prime = false ∧ t.status.noinv = false) ∧
      (resets ev = true → t.status.prime = false ∧ t.status.noinv = false)) := by
  have hcmd {v : Word} (hv : commandWritten ev = some v) : ev = .complete → running s = false := by
    rintro rfl; cases hv
  cases flagEffect_of_perform h with
  | overrun v hv hb ht => exact .inr ⟨hcmd hv, by simp [ht, hb, resets_of_commandWritten hv]⟩
  | raised v code hv hb hc ht => exact .inr ⟨hcmd hv, by simp [ht]⟩
  | accepted v c hv hb hd ht => exact .inr ⟨hcmd hv, by simp [ht]⟩
  | reset hr hv ht => exact .inr ⟨by (rintro rfl; cases hr), by simp [ht, Status.reset]⟩
  | cleared v hi hv hr ht =>
    exact .inr ⟨by (rintro rfl; cases hi), by simp [ht, hv, hr]⟩
  | completed c hev hq ho ht => exact .inl ⟨c, hev, hq, ho, ht⟩
  | kept hv hr hs hc ht => exact .inr ⟨hc, by simp [ht, hv, hr]⟩

/-- Settles O54: at an MRTEST completion PRIME is the result's bit 0, and no other effect sets it. -/
theorem primeIsSetOnlyByMrtest : Obligations.PrimeIsSetOnlyByMrtest := by
  intro ev s t h
  obtain ⟨c, rfl, hq, ho, rfl⟩ | ⟨hc, hset, -, hcmd, hr⟩ := resultFlags_cases h
  · by_cases hm : c = .mrtest <;>
      simp [completeCommand_eq, primeAfter, commandWritten, eventInstr, resets, hq, ho, hm]
  · exact ⟨fun hs ht => absurd (hset ht) (by simp [hs]), fun he hq => absurd (hc he) (by simp [hq]),
      fun v hv hb => (hcmd v hv hb).1, fun h => (hr h).1⟩

/-- Settles O55: at an MINV completion NOINV is that the result is 0, and no other effect sets it. -/
theorem noInverseIsSetOnlyByMinv : Obligations.NoInverseIsSetOnlyByMinv := by
  intro ev s t h
  obtain ⟨c, rfl, hq, ho, rfl⟩ | ⟨hc, -, hset, hcmd, hr⟩ := resultFlags_cases h
  · by_cases hm : c = .minv <;>
      simp [completeCommand_eq, noinvAfter, commandWritten, eventInstr, resets, hq, ho, hm]
  · exact ⟨fun hs ht => absurd (hset ht) (by simp [hs]), fun he hq => absurd (hc he) (by simp [hq]),
      fun v hv hb => (hcmd v hv hb).2, fun h => (hr h).2⟩

end Sys2Proof.Machine
end

section
/-! PROOFS. The results of the datapath functions fit (R45): extended Euclid's coefficients stay below the
modulus and keep their congruences. -/

namespace Sys2Proof.Machine

/-! ### Extended Euclid (R151) -/

/-- What every iteration of extended Euclid keeps, for `a` modulo `m`: the remainders fall, the coefficients
are residues, and x·a is congruent to d for both pairs. -/
structure EuclidInv (a m : Nat) (s : Euclid) : Prop where
  d1_lt : s.d1 < s.d0
  d0_le : s.d0 ≤ m
  x0_lt : s.x0 < m
  x1_lt : s.x1 < m
  x0_modEq : (s.x0 * a : Int) ≡ s.d0 [ZMOD m]
  x1_modEq : (s.x1 * a : Int) ≡ s.d1 [ZMOD m]

theorem euclidInv_start {a m : Nat} (hm : 0 < m) :
    EuclidInv a m { d0 := m, x0 := 0, d1 := a % m, x1 := 1 % m } where
  d1_lt := Nat.mod_lt _ hm
  d0_le := le_rfl
  x0_lt := hm
  x1_lt := Nat.mod_lt _ hm
  x0_modEq := by simp [Int.modEq_iff_dvd]
  x1_modEq := by
    have h : ((1 % m : Nat) * a : Int) ≡ 1 * a [ZMOD m] := by
      rw [Int.natCast_mod]; exact (Int.mod_modEq 1 m).mul_right a
    rw [one_mul] at h
    rw [Int.natCast_mod a m]
    exact h.trans (Int.mod_modEq a m).symm

theorem euclidIter_d1 (m : Nat) (s : Euclid) : (euclidIter m s).d1 = s.d0 % s.d1 := by
  have h := Nat.div_add_mod' s.d0 s.d1
  simp only [euclidIter]; omega

/-- The new coefficient is x0 - T·x1 modulo m. -/
theorem euclidIter_x1_modEq {m : Nat} (s : Euclid) (hm : 0 < m) (hx : s.x1 < 2 ^ 64) :
    ((euclidIter m s).x1 : Int) ≡ s.x0 - s.d0 / s.d1 * s.x1 [ZMOD m] := by
  simp only [euclidIter]
  rw [modSub_eq _ _ hm, modMul_eq _ hm hx]
  push_cast
  exact (Int.mod_modEq _ _).trans ((Int.ModEq.refl _).sub (Int.mod_modEq _ _))

theorem EuclidInv.iter {a m : Nat} {s : Euclid} (h : EuclidInv a m s) (hm : 0 < m) (hm' : m ≤ 2 ^ 64)
    (h1 : 0 < s.d1) : EuclidInv a m (euclidIter m s) where
  d1_lt := by rw [euclidIter_d1]; exact Nat.mod_lt _ h1
  d0_le := h.d1_lt.le.trans h.d0_le
  x0_lt := h.x1_lt
  x1_lt := modSub_lt _ _ hm
  x0_modEq := h.x1_modEq
  x1_modEq := by
    have hx := (euclidIter_x1_modEq s hm (h.x1_lt.trans_le hm')).mul_right (a : Int)
    have hd : (s.d0 - s.d0 / s.d1 * s.d1 : Int) = ((euclidIter m s).d1 : Int) := by
      rw [euclidIter_d1, Int.natCast_mod, Int.emod_def, mul_comm]
    calc ((euclidIter m s).x1 * a : Int)
        ≡ (s.x0 - s.d0 / s.d1 * s.x1) * a [ZMOD m] := hx
      _ = s.x0 * a - s.d0 / s.d1 * (s.x1 * a) := by ring
      _ ≡ s.d0 - s.d0 / s.d1 * s.d1 [ZMOD m] := h.x0_modEq.sub (h.x1_modEq.mul_left _)
      _ = ((euclidIter m s).d1 : Int) := hd

theorem EuclidInv.result_lt {a m : Nat} {s : Euclid} (h : EuclidInv a m s) : euclidResult s < m := by
  have := h.x1_lt
  unfold euclidResult; split <;> omega

/-- With d1 = 1 the coefficient is an inverse of `a`, so it is not 0 unless the modulus is 1. -/
theorem EuclidInv.x1_ne_zero {a m : Nat} {s : Euclid} (h : EuclidInv a m s) (h1 : s.d1 = 1) : s.x1 ≠ 0 := by
  intro hx
  have hc := h.x1_modEq
  rw [hx, h1, Int.modEq_iff_dvd] at hc
  have hle := Int.le_of_dvd (by simp) hc
  have := h.d1_lt
  have := h.d0_le
  simp at hle
  omega

theorem euclidLoop_lt {a m fuel : Nat} {s : Euclid} (h : EuclidInv a m s) (hm : 0 < m) (hm' : m ≤ 2 ^ 64) :
    euclidLoop m fuel s < m := by
  induction fuel generalizing s with
  | zero => exact h.result_lt
  | succ fuel ih =>
    rw [euclidLoop]
    split
    · exact ih (h.iter hm hm' (by omega))
    · exact h.result_lt

theorem modInv_lt {m : Nat} (a : Nat) (hm : 0 < m) (hm' : m ≤ 2 ^ 64) : modInv a m < m :=
  euclidLoop_lt (euclidInv_start hm) hm hm'

/-! ### The results -/

/-- What the datapath function of `c` gives, before it is narrowed to a register (R96). -/
def exactResult (c : Command) (a b m : Nat) : Nat :=
  match c with
  | .madd => modAdd a b m
  | .msub => modSub a b m
  | .mmul => modMul a b m
  | .mpow => modPow a b m
  | .mrtest => if millerRabin a then 1 else 0
  | .minv => modInv a m

theorem exactResult_lt {c : Command} {b m : Nat} (a : Nat) (hc : c ≠ .mrtest) (hm : 0 < m) (hm' : m ≤ 2 ^ 64)
    (hb : b < 2 ^ 64) : exactResult c a b m < m := by
  cases c with
  | madd => exact modAdd_lt a b hm
  | msub => exact modSub_lt a b hm
  | mmul => exact modMul_lt a hm hb
  | mpow => exact modPow_lt a hm hm' hb
  | mrtest => exact absurd rfl hc
  | minv => exact modInv_lt a hm hm'

theorem toNat_pos_of_ne_zero {n : Nat} {x : BitVec n} (h : x ≠ 0#n) : 0 < x.toNat :=
  Nat.pos_of_ne_zero fun h0 => h (BitVec.eq_of_toNat_eq (by simpa using h0))

/-- A modulus command that can complete has a modulus from 1 up (R94, R162). -/
theorem modulus_pos {c : Command} {w : Working} (h : runnable w = .ok c) (hc : c ≠ .mrtest) :
    0 < w.m.toNat := by
  obtain ⟨-, hm⟩ := runnable_eq_ok.1 h
  exact toNat_pos_of_ne_zero (hm.resolve_left hc)

theorem commandResult_eq_toWord (c : Command) (w : Working) :
    commandResult c w = toWord (exactResult c w.a.toNat w.b.toNat w.m.toNat) := by
  cases c with
  | mrtest => rw [commandResult_mrtest, exactResult]; split <;> rfl
  | _ => rfl

/-- A register holds the exact result of every command that can complete (R45). -/
theorem commandResult_toNat {c : Command} {w : Working} (h : runnable w = .ok c) :
    (commandResult c w).toNat = exactResult c w.a.toNat w.b.toNat w.m.toNat := by
  rw [commandResult_eq_toWord]
  apply toWord_toNat
  by_cases hc : c = .mrtest
  · rw [hc, exactResult]; split <;> decide
  · exact (exactResult_lt _ hc (modulus_pos h hc) w.m.isLt.le w.b.isLt).trans w.m.isLt

theorem perform_complete_of_running {s : State} (h : running s = true) :
    perform .complete s = complete s := by
  obtain ⟨pos, hq⟩ := running_eq_true.1 h
  simp only [perform, completeIfRunning, hq]

/-- Settles O35: a completion's result is exact, and every datapath function stays below its modulus. -/
theorem resultsStayBelowTheModulus : Obligations.ResultsStayBelowTheModulus := by
  intro u v hr h
  rw [perform_complete_of_running hr] at h
  obtain ⟨c, hok, rfl⟩ := complete_eq_next.1 h
  have hres : (completeCommand c u).result = commandResult c u.w := by rw [completeCommand_eq]
  have hexact := commandResult_toNat hok
  rw [hres, (runnable_eq_ok.1 hok).1]
  simp only [ne_eq, opcodeOf_inj]
  refine ⟨fun hc => ?_, ?_, ?_⟩
  · rw [hexact]
    exact exactResult_lt _ hc (modulus_pos hok hc) u.w.m.isLt.le u.w.b.isLt
  · rintro rfl
    rw [commandResult_mrtest]; split <;> simp
  · refine ⟨?_, ?_, ?_, ?_, ?_⟩ <;> (rintro rfl; exact hexact)

end Sys2Proof.Machine
end

section
/-! PROOFS. Between an acceptance and its completion nothing but a reset disturbs the running command (R42, R64,
R97): progress, what every event keeps, and the run. -/

namespace Sys2Proof.Machine

/-! ### Progress -/

/-- From the invariant every event leads on, but for an access the adapter refuses (log 11, log 16). -/
theorem perform_answers_next {ev : Event} {s : State} (h : engineInv s = true)
    (hbus : ∀ access, ev = .bus access → ∃ i, busTransaction access = .ok i) :
    ∃ t, perform ev s = .next t := by
  cases ev with
  | xact x => exact exec_answers_next _ s
  | cmd v => exact exec_answers_next _ s
  | bus access =>
    obtain ⟨i, hi⟩ := hbus access rfl
    simp only [perform, hi]
    exact exec_answers_next i s
  | tick =>
    cases hq : s.seq with
    | idle => exact ⟨s, by simp only [perform, tick, hq]⟩
    | run pos => exact ⟨_, by simp only [perform, tick, hq, (engineInv_of_run hq).1 h]; rfl⟩
  | complete =>
    cases hr : running s with
    | false => exact ⟨s, by simp only [perform, completeIfRunning, running_eq_false.1 hr]⟩
    | true =>
      obtain ⟨c, hc⟩ := runnable_of_engineInv h hr
      rw [perform_complete_of_running hr]
      exact ⟨_, complete_eq_next.2 ⟨c, hc, rfl⟩⟩
  | hardReset presented => exact ⟨_, rfl⟩

/-- No effect touches the events still to happen. -/
theorem Effect.events {ev : Event} {s t : State} (he : Effect ev s t) : t.events = s.events := by
  cases he with
  | completed => rw [completeCommand_eq]
  | _ => rfl

theorem step_of_events {ev : Event} {rest : List Event} {s : State} (h : s.events = ev :: rest) :
    step s = perform ev (beginEvent rest s) := by
  simp only [step, h]

/-- A run whose first step leads on goes on from there. -/
theorem run_succ {s t : State} (h : step s = .next t) (k : Nat) :
    Sys2Proof.core.run (k + 1) s = Sys2Proof.core.run k t := by
  have hcore : Sys2Proof.core.step s = .next t := h
  simp only [Host.Core.run, hcore]

/-! ### A pending command -/

/-- The engine runs the command latched in `w`. -/
def Pending (w : Working) (s : State) : Prop := Inv s ∧ running s = true ∧ SameCommand w s.w

theorem Pending.busy {w : Working} {s : State} (h : Pending w s) : s.status.busy = true := by
  obtain ⟨⟨⟨hb, -⟩, -⟩, hr, -⟩ := h
  exact hb.trans hr

theorem Pending.engineInv {w : Working} {s : State} (h : Pending w s) : Machine.engineInv s = true := by
  obtain ⟨⟨-, heng⟩, -⟩ := h
  exact heng

/-- Every event but a reset and the completion leaves a command pending. -/
theorem Effect.pending {ev : Event} {w : Working} {s t : State} (he : Effect ev s t) (h : Pending w s)
    (hc : ev ≠ .complete) (hr : resets ev = false) : Pending w t := by
  have hbusy := h.busy
  obtain ⟨hinv, hrun, hsame⟩ := h
  refine ⟨he.inv hinv, ?_⟩
  cases he with
  | raised hv hb => rw [hb] at hbusy; cases hbusy
  | accepted hv hb => rw [hb] at hbusy; cases hbusy
  | reset hr' => rw [hr'] at hr; cases hr
  | iterated hq hf => exact ⟨rfl, hsame.trans (advance_same _)⟩
  | completed => exact absurd rfl hc
  | _ => exact ⟨hrun, hsame⟩

/-- `t` is what a completion of `c`, latched in `w`, leaves to the host (R96). -/
def CompletedAs (c : Command) (w : Working) (t : State) : Prop :=
  t.result = commandResult c w ∧ t.status.prime = primeAfter c (commandResult c w) false ∧
    t.status.noinv = noinvAfter c (commandResult c w) false ∧ t.status.busy = false ∧ running t = false

/-- The completion of a pending command depends on what it latched alone. -/
theorem Pending.complete {c : Command} {w : Working} {s : State} (h : Pending w s)
    (hc : runnable w = .ok c) : ∃ t, perform .complete s = .next t ∧ CompletedAs c w t := by
  have hbusy := h.busy
  obtain ⟨⟨⟨-, hflags, -⟩, -⟩, hrun, hsame⟩ := h
  obtain ⟨-, -, -, hprime, hnoinv⟩ := hflags hbusy
  refine ⟨completeCommand c s, ?_, ?_⟩
  · rw [perform_complete_of_running hrun]
    exact complete_eq_next.2 ⟨c, (runnable_of_same hsame).trans hc, rfl⟩
  · rw [completeCommand_eq, commandResult_of_same hsame, hprime, hnoinv]
    exact ⟨rfl, rfl, rfl, rfl, rfl⟩

/-- A pending command completes at the end of whatever harmless events come first (R97). -/
theorem run_completes_pending {c : Command} {w : Working} (hc : runnable w = .ok c)
    (between rest : List Event) (s : State) (h : Pending w s) (hs : s.events = between ++ .complete :: rest)
    (hbetween : ∀ ev ∈ between, ev ≠ .complete ∧ resets ev = false ∧
      ∀ access, ev = .bus access → ∃ i, busTransaction access = .ok i) :
    ∃ later, Sys2Proof.core.run (between.length + 1) s = .next later ∧ CompletedAs c w later := by
  induction between generalizing s with
  | nil =>
    obtain ⟨t, ht, hdone⟩ := Pending.complete (s := beginEvent rest s) h hc
    exact ⟨t, run_succ ((step_of_events hs).trans ht) 0, hdone⟩
  | cons ev between ih =>
    obtain ⟨⟨hne, hr, hbus⟩, hmore⟩ := List.forall_mem_cons.1 hbetween
    have h' : Pending w (beginEvent (between ++ .complete :: rest) s) := h
    obtain ⟨t, ht⟩ := perform_answers_next h'.engineInv hbus
    have he := effect_of_perform ht
    obtain ⟨later, hrun, hdone⟩ := ih t (he.pending h' hne hr) he.events hmore
    exact ⟨later, (run_succ ((step_of_events hs).trans ht) _).trans hrun, hdone⟩

/-- Settles O42: both completions are of the command latched at the acceptance. -/
theorem placementOfCompletionNeverChangesTheResult :
    Obligations.PlacementOfCompletionNeverChangesTheResult := by
  intro s t now c between rest hinv hb hm hexec hnow hbetween
  rw [exec_ofCommand, commandWrite_accepted hb (decodeCommand_commandWord c) hm] at hexec
  cases hexec
  set t := accept c { s with lastCmd := commandWord c } with ht
  have hpending : Pending t.w t := ⟨inv_accept hm, rfl, .refl _⟩
  have hc : runnable t.w = .ok c := by
    rw [ht, accept_w, runnable_of_same (initialise_same _ _)]
    exact runnable_eq_ok.2 ⟨rfl, hm⟩
  obtain ⟨now', hnow', hres, hprime, hnoinv, -⟩ := hpending.complete hc
  cases hnow.symm.trans hnow'
  obtain ⟨later, hrun, hres', hprime', hnoinv', hidle⟩ :=
    run_completes_pending hc between rest { t with events := between ++ .complete :: rest } hpending rfl
      hbetween
  exact ⟨later, hrun, hres'.trans hres.symm, hprime'.trans hprime.symm, hnoinv'.trans hnoinv.symm, hidle⟩

end Sys2Proof.Machine
end

section
/-! PROOFS. The reference sequences, iteration by iteration, end where the datapath functions do (R42). -/

namespace Sys2Proof.Machine

/-! ### Reaching a place of the sequence -/

/-- Some number of iterations leads from `p` to `p'`. -/
def Reaches (p p' : Position × Working) : Prop := ∃ k, advanceN k p = p'

theorem Reaches.refl (p : Position × Working) : Reaches p p := ⟨0, rfl⟩

theorem Reaches.head {p p' : Position × Working} (h : Reaches (advance p) p') : Reaches p p' := by
  obtain ⟨k, hk⟩ := h
  exact ⟨k + 1, hk⟩

theorem Reaches.trans {p p' p'' : Position × Working} (h : Reaches p p') (h' : Reaches p' p'') :
    Reaches p p'' := by
  obtain ⟨j, rfl⟩ := h
  obtain ⟨k, rfl⟩ := h'
  exact ⟨j + k, advanceN_add j k p⟩

theorem toNat_eq_zero_iff {w : Word} : w = 0#64 ↔ w.toNat = 0 :=
  ⟨fun h => by rw [h]; rfl, fun h => BitVec.eq_of_toNat_eq h⟩

/-! ### MMUL and MPOW (R130, R132) -/

/-- The loop registers of `mod_mul` and `mod_pow` fit their working registers. -/
structure ScanInv (m : Nat) (s : Scan) : Prop where
  acc_lt : s.acc < m
  base_lt : s.base < m
  e_lt : s.e < 2 ^ 64

theorem scanOf_putScan {m : Nat} {s : Scan} (w : Working) (h : ScanInv m s) (hm : m ≤ 2 ^ 64) :
    scanOf (putScan w s) = s := by
  simp only [scanOf, putScan, toWord_toNat (h.acc_lt.trans_le hm), toWord_toNat (h.base_lt.trans_le hm),
    toWord_toNat h.e_lt]

/-- `loop` repeats `iter` while E ≠ 0, and so do the iterations of command `c`. -/
structure ScanCommand (c : Command) (iter : Nat → Scan → Scan) (loop : Nat → Nat → Scan → Nat) : Prop where
  advance_eq : ∀ w, w.op = opcodeOf c →
    advance (.loop, w) =
      if w.e = 0#64 then (.finished, w) else (.loop, putScan w (iter w.m.toNat (scanOf w)))
  loop_zero : ∀ m s, loop m 0 s = s.acc
  loop_succ : ∀ m fuel s, loop m (fuel + 1) s = if s.e = 0 then s.acc else loop m fuel (iter m s)
  inv_iter : ∀ m s, 0 < m → m ≤ 2 ^ 64 → ScanInv m s → ScanInv m (iter m s)
  iter_e : ∀ m s, (iter m s).e = s.e / 2

theorem mmul_scanCommand : ScanCommand .mmul mulIter mulLoop where
  advance_eq w hw := by simp only [advance, loopStep, hw, commandOfOpcode_opcodeOf]
  loop_zero _ _ := rfl
  loop_succ _ _ _ := rfl
  inv_iter m s hm _ h := by
    refine ⟨?_, modAdd_lt _ _ hm, (Nat.div_le_self _ _).trans_lt h.e_lt⟩
    simp only [mulIter]; split
    · exact modAdd_lt _ _ hm
    · exact h.acc_lt
  iter_e _ _ := rfl

theorem mpow_scanCommand : ScanCommand .mpow powIter powLoop where
  advance_eq w hw := by simp only [advance, loopStep, hw, commandOfOpcode_opcodeOf]
  loop_zero _ _ := rfl
  loop_succ _ _ _ := rfl
  inv_iter m s hm hm' h := by
    have hb := h.base_lt.trans_le hm'
    refine ⟨?_, modMul_lt _ hm hb, (Nat.div_le_self _ _).trans_lt h.e_lt⟩
    simp only [powIter]; split
    · exact modMul_lt _ hm hb
    · exact h.acc_lt
  iter_e _ _ := rfl

theorem ScanCommand.ends {c : Command} {iter : Nat → Scan → Scan} {loop : Nat → Nat → Scan → Nat}
    (hc : ScanCommand c iter loop) {w : Working} (hop : w.op = opcodeOf c) (h0 : w.e = 0#64) :
    Reaches (.loop, w) (.finished, w) :=
  .head (by rw [hc.advance_eq w hop, if_pos h0]; exact .refl _)

/-- The iterations end with the loop's result in W.ACC. -/
theorem ScanCommand.reaches {c : Command} {iter : Nat → Scan → Scan} {loop : Nat → Nat → Scan → Nat}
    (hc : ScanCommand c iter loop) (fuel : Nat) (w : Working) (hop : w.op = opcodeOf c)
    (hm : 0 < w.m.toNat) (hinv : ScanInv w.m.toNat (scanOf w)) (he : w.e.toNat < 2 ^ fuel) :
    ∃ w', Reaches (.loop, w) (.finished, w') ∧ w'.acc.toNat = loop w.m.toNat fuel (scanOf w) := by
  induction fuel generalizing w with
  | zero =>
    have h0 : w.e = 0#64 := toNat_eq_zero_iff.2 (by omega)
    exact ⟨w, hc.ends hop h0, (hc.loop_zero w.m.toNat (scanOf w)).symm⟩
  | succ fuel ih =>
    rw [hc.loop_succ]
    by_cases h0 : w.e = 0#64
    · exact ⟨w, hc.ends hop h0, by rw [if_pos (show (scanOf w).e = 0 from toNat_eq_zero_iff.1 h0)]; rfl⟩
    · have hinv' := hc.inv_iter _ _ hm w.m.isLt.le hinv
      set w₁ := putScan w (iter w.m.toNat (scanOf w))
      have hput : scanOf w₁ = iter w.m.toNat (scanOf w) := scanOf_putScan w hinv' w.m.isLt.le
      have he' : w₁.e.toNat = w.e.toNat / 2 := (congrArg Scan.e hput).trans (hc.iter_e _ _)
      rw [← hput] at hinv'
      obtain ⟨w', hw', hacc⟩ := ih w₁ hop hm hinv' (by omega)
      refine ⟨w', .head (by rw [hc.advance_eq w hop, if_neg h0]; exact hw'), ?_⟩
      rw [if_neg (show (scanOf w).e ≠ 0 from fun h => h0 (toNat_eq_zero_iff.2 h)), ← hput]
      exact hacc

/-- From start values that fit, the sequence ends with the result of the whole loop, 64 iterations at most. -/
theorem ScanCommand.reaches_of_start {c : Command} {iter : Nat → Scan → Scan}
    {loop : Nat → Nat → Scan → Nat} (hc : ScanCommand c iter loop) {w : Working} (hop : w.op = opcodeOf c)
    (hm : 0 < w.m.toNat) (start : Scan) (hinv : ScanInv w.m.toNat start) :
    ∃ w', Reaches (.loop, putScan w start) (.finished, w') ∧ w'.acc.toNat = loop w.m.toNat 64 start := by
  have hput := scanOf_putScan w hinv w.m.isLt.le
  obtain ⟨w', hw', hacc⟩ := hc.reaches 64 (putScan w start) hop hm (hput.symm ▸ hinv) (BitVec.isLt _)
  exact ⟨w', hw', hacc.trans (by rw [hput]; rfl)⟩

/-! ### MINV (R151) -/

theorem euclidOf_putEuclid {a m : Nat} {s : Euclid} (w : Working) (h : EuclidInv a m s) (hm : m < 2 ^ 64) :
    euclidOf (putEuclid w s) = s := by
  have hd0 := h.d0_le.trans_lt hm
  simp only [euclidOf, putEuclid, toWord_toNat hd0, toWord_toNat (h.x0_lt.trans hm),
    toWord_toNat (h.d1_lt.trans hd0), toWord_toNat (h.x1_lt.trans hm)]

theorem advance_minv {w : Working} (hop : w.op = opcodeOf .minv) :
    advance (.loop, w) =
      if w.d1.toNat > 1 then
        (.loop, { putEuclid w (euclidIter w.m.toNat (euclidOf w)) with t := w.d0 / w.d1 })
      else (.finished, w) := by
  simp only [advance, loopStep, hop, commandOfOpcode_opcodeOf]

/-- The product of the two remainders at least halves. -/
theorem euclidIter_product {m fuel : Nat} {s : Euclid} (hlt : s.d1 < s.d0) (h1 : 0 < s.d1)
    (h : s.d0 * s.d1 < 2 ^ (fuel + 1)) : (euclidIter m s).d0 * (euclidIter m s).d1 < 2 ^ fuel := by
  have hr := Nat.mod_lt s.d0 h1
  have hq : 1 ≤ s.d0 / s.d1 := Nat.div_pos hlt.le h1
  have hdiv := Nat.div_add_mod s.d0 s.d1
  have hle : s.d1 + s.d0 % s.d1 ≤ s.d0 := by nlinarith
  rw [euclidIter_d1, pow_succ] at *
  show s.d1 * (s.d0 % s.d1) < 2 ^ fuel
  nlinarith

/-- The iterations end with the loop's result in W.X1, or its absence (R151). -/
theorem minv_reaches {a : Nat} (fuel : Nat) (w : Working) (hop : w.op = opcodeOf .minv)
    (hm : 0 < w.m.toNat) (hinv : EuclidInv a w.m.toNat (euclidOf w))
    (hf : w.d0.toNat * w.d1.toNat < 2 ^ fuel) :
    ∃ w', Reaches (.loop, w) (.finished, w') ∧ EuclidInv a w.m.toNat (euclidOf w') ∧
      euclidResult (euclidOf w') = euclidLoop w.m.toNat fuel (euclidOf w) := by
  induction fuel generalizing w with
  | zero =>
    have hlt : w.d1.toNat < w.d0.toNat := hinv.d1_lt
    have h1 : ¬ w.d1.toNat > 1 := by
      intro h1
      have := Nat.mul_pos (show 0 < w.d0.toNat by omega) (show 0 < w.d1.toNat by omega)
      omega
    exact ⟨w, .head (by rw [advance_minv hop, if_neg h1]; exact .refl _), hinv, rfl⟩
  | succ fuel ih =>
    rw [euclidLoop]
    by_cases h1 : w.d1.toNat > 1
    · have hpos : 0 < (euclidOf w).d1 := Nat.zero_lt_of_lt h1
      have hinv' := hinv.iter hm w.m.isLt.le hpos
      have hput := euclidOf_putEuclid w hinv' w.m.isLt
      set w₁ : Working := { putEuclid w (euclidIter w.m.toNat (euclidOf w)) with t := w.d0 / w.d1 }
      have hput₁ : euclidOf w₁ = euclidIter w.m.toNat (euclidOf w) := hput
      have hprod := euclidIter_product (m := w.m.toNat) hinv.d1_lt hpos hf
      rw [← hput₁] at hprod hinv'
      obtain ⟨w', hw', hrest⟩ := ih w₁ hop hm hinv' hprod
      refine ⟨w', .head (by rw [advance_minv hop, if_pos h1]; exact hw'), ?_⟩
      rw [if_pos (show (euclidOf w).d1 > 1 from h1), ← hput₁]
      exact hrest
    · rw [if_neg (show ¬ (euclidOf w).d1 > 1 from h1)]
      exact ⟨w, .head (by rw [advance_minv hop, if_neg h1]; exact .refl _), hinv, rfl⟩

end Sys2Proof.Machine
end

section
/-! PROOFS. MRTEST's sequence (R140-R142) declares the verdict of `millerRabin`, and with it the reference
sequence of every command agrees with its completion (R42). -/

namespace Sys2Proof.Machine

/-! ### The halving loop (R141) -/

theorem toNat_odd_iff {w : Word} : w.getLsbD 0 = true ↔ w.toNat % 2 = 1 := by
  rw [BitVec.getLsbD, Nat.testBit_zero, decide_eq_true_iff]

theorem toNat_add_one {n : Nat} {x : BitVec n} (h : x.toNat + 1 < 2 ^ n) : (x + 1#n).toNat = x.toNat + 1 := by
  rw [BitVec.toNat_add, BitVec.toNat_ofNat, Nat.add_mod_mod, Nat.mod_eq_of_lt h]

theorem le_halveLoop_snd (fuel q k : Nat) : k ≤ (halveLoop fuel q k).2 := by
  induction fuel generalizing q k with
  | zero => exact le_rfl
  | succ fuel ih =>
    rw [halveLoop]; split
    · exact (Nat.le_succ k).trans (ih _ _)
    · exact le_rfl

/-- The halving iterations end at the first witness, with the loop's Q and K. -/
theorem halve_reaches (fuel : Nat) (w : Working) (hq : 0 < w.q.toNat) (hlt : w.q.toNat < 2 ^ fuel)
    (hk : w.k.toNat + fuel ≤ 64) :
    ∃ w', Reaches (.halve, w) (.witness, w') ∧ SameCommand w w' ∧ w'.wi = 0#4 ∧
      (w'.q.toNat, w'.k.toNat) = halveLoop fuel w.q.toNat w.k.toNat := by
  induction fuel generalizing w with
  | zero => omega
  | succ fuel ih =>
    rw [halveLoop]
    by_cases hodd : w.q.getLsbD 0 = true
    · have h1 := toNat_odd_iff.1 hodd
      refine ⟨{ w with wi := 0#4 }, .head ?_, .refl _, rfl, ?_⟩
      · simp only [advance, halveStep, hodd, if_true]; exact .refl _
      · rw [if_neg (by omega)]
    · have h0 : w.q.toNat % 2 = 0 := by
        have := mt toNat_odd_iff.2 hodd; omega
      have hfuel : 0 < fuel := by
        rcases Nat.eq_zero_or_pos fuel with rfl | h
        · omega
        · exact h
      have hq' : (w.q >>> 1).toNat = w.q.toNat / 2 := by
        rw [BitVec.toNat_ushiftRight, Nat.shiftRight_eq_div_pow, pow_one]
      have hk' : (w.k + 1#6).toNat = w.k.toNat + 1 := toNat_add_one (by omega)
      obtain ⟨w', hw', hsame, hwi, hqk⟩ :=
        ih { w with q := w.q >>> 1, k := w.k + 1#6 } (by simp only [hq']; omega)
          (by simp only [hq']; omega) (by simp only [hk']; omega)
      refine ⟨w', .head ?_, hsame, hwi, ?_⟩
      · simp only [advance, halveStep, hodd]; exact hw'
      · rw [if_pos h0, hqk, hq', hk']

/-! ### The squaring loop (R142) -/

/-- `w'` is at the same witness of the same test as `w`. -/
structure SameTest (w w' : Working) : Prop where
  same : SameCommand w w'
  q_eq : w'.q = w.q
  k_eq : w'.k = w.k
  wi_eq : w'.wi = w.wi

theorem SameTest.refl (w : Working) : SameTest w w := ⟨.refl w, rfl, rfl, rfl⟩

/-- The end of a witness: the next one if it passed, else the verdict. -/
def afterWitness (passed : Bool) (w : Working) : Position × Working :=
  if passed then nextWitness w else (.declared false, w)

theorem eq_sub_one_iff {x n : Word} (hn : 0 < n.toNat) : x = n - 1#64 ↔ x.toNat = n.toNat - 1 := by
  have : (n - 1#64).toNat = n.toNat - 1 := BitVec.toNat_sub_of_le (by rw [BitVec.le_def]; exact hn)
  rw [← this, BitVec.toNat_inj]

/-- The squaring iterations end with the verdict of `squareLoop` on the witness. -/
theorem square_reaches (fuel : Nat) (w : Working) (ha : 0 < w.a.toNat) (hr : w.r.toNat < w.k.toNat)
    (hf : w.k.toNat - w.r.toNat ≤ fuel) :
    ∃ w', SameTest w w' ∧ Reaches (.square, w)
      (afterWitness (squareLoop w.a.toNat w.k.toNat fuel w.x.toNat w.r.toNat) w') := by
  induction fuel generalizing w with
  | zero => omega
  | succ fuel ih =>
    have hr' : (w.r + 1#6).toNat = w.r.toNat + 1 := toNat_add_one (by have := w.k.isLt; omega)
    have hlast : w.r + 1#6 = w.k ↔ w.r.toNat + 1 = w.k.toNat := by rw [← hr', BitVec.toNat_inj]
    rw [squareLoop]
    simp only [← eq_sub_one_iff ha, ← hlast]
    by_cases hx : w.x = w.a - 1#64
    · refine ⟨w, .refl w, .head ?_⟩
      simp only [advance, squareStep, if_pos hx, afterWitness, if_true]
      exact .refl _
    · by_cases hk : w.r + 1#6 = w.k
      · refine ⟨{ w with r := w.r + 1#6 }, ⟨.refl _, rfl, rfl, rfl⟩, .head ?_⟩
        simp only [advance, squareStep, if_neg hx, if_pos hk, afterWitness, Bool.false_eq_true, if_false]
        exact .refl _
      · have hsq : modMul w.x.toNat w.x.toNat w.a.toNat < 2 ^ 64 :=
          (modMul_lt _ ha w.x.isLt).trans w.a.isLt
        obtain ⟨w', hsame, hw'⟩ :=
          ih { w with r := w.r + 1#6, x := toWord (modMul w.x.toNat w.x.toNat w.a.toNat) } ha
            (by simp only [hr']; have := mt hlast.2 hk; omega) (by simp only [hr']; omega)
        simp only [hr', toWord_toNat hsq] at hw'
        refine ⟨w', ⟨hsame.same, hsame.q_eq, hsame.k_eq, hsame.wi_eq⟩, .head ?_⟩
        simp only [advance, squareStep, if_neg hx, if_neg hk]
        exact hw'

/-! ### The loop over the witnesses (R142) -/

/-- One witness is tried to its end. -/
theorem witness_reaches_afterWitness (w : Working) (ha : 0 < w.a.toNat) (hk : 0 < w.k.toNat)
    (hne : currentWitness w ≠ w.a.toNat) :
    ∃ w', SameTest w w' ∧ Reaches (.witness, w)
      (afterWitness (witnessPasses w.a.toNat w.q.toNat w.k.toNat (currentWitness w)) w') := by
  unfold witnessPasses
  by_cases h1 : modPow (currentWitness w) w.q.toNat w.a.toNat = 1
  · refine ⟨{ w with x := 1#64 }, ⟨.refl _, rfl, rfl, rfl⟩, .head ?_⟩
    simp only [advance, takeWitness, if_neg hne, if_pos h1, afterWitness, if_true]
    exact .refl _
  · have hx : modPow (currentWitness w) w.q.toNat w.a.toNat < 2 ^ 64 :=
      (modPow_lt _ ha w.a.isLt.le w.q.isLt).trans w.a.isLt
    obtain ⟨w', hsame, hw'⟩ := square_reaches 64
      { w with x := toWord (modPow (currentWitness w) w.q.toNat w.a.toNat), r := 0#6 } ha hk
      (by have := w.k.isLt; simp only [BitVec.toNat_ofNat]; omega)
    simp only [toWord_toNat hx] at hw'
    refine ⟨w', ⟨hsame.same, hsame.q_eq, hsame.k_eq, hsame.wi_eq⟩, .head ?_⟩
    simp only [advance, takeWitness, if_neg hne, if_neg h1]
    exact hw'

theorem currentWitness_of_drop {w : Working} {a : Nat} {rest : List Nat}
    (h : Config.witnesses.drop w.wi.toNat = a :: rest) : currentWitness w = a := by
  have : Config.witnesses[w.wi.toNat]? = some a := by
    rw [← List.head?_drop, h]; rfl
  rw [currentWitness, List.getD_eq_getElem?_getD, this]; rfl

/-- After the twelfth witness the verdict is prime; before, W.WI goes on to the next. -/
theorem nextWitness_of_drop {w : Working} {a : Nat} {rest : List Nat}
    (h : Config.witnesses.drop w.wi.toNat = a :: rest) :
    (rest = [] ∧ nextWitness w = (.declared true, w)) ∨
    (rest ≠ [] ∧ nextWitness w = (.witness, { w with wi := w.wi + 1#4 }) ∧
      Config.witnesses.drop (w.wi + 1#4).toNat = rest) := by
  have hlen := congrArg List.length h
  rw [List.length_drop, List.length_cons, show Config.witnesses.length = 12 from rfl] at hlen
  by_cases h11 : w.wi = 11#4
  · rw [h11] at hlen
    exact .inl ⟨List.eq_nil_of_length_eq_zero (by simpa using hlen.symm),
      by simp only [nextWitness, if_pos h11]⟩
  · have hne : w.wi.toNat ≠ 11 := fun h => h11 (BitVec.eq_of_toNat_eq h)
    refine .inr ⟨fun h0 => ?_, by simp only [nextWitness, if_neg h11], ?_⟩
    · rw [h0, List.length_nil] at hlen; omega
    · rw [toNat_add_one (by omega), ← List.drop_drop, h]; rfl

/-- The witness iterations end with the verdict of `witnessLoop` on the witnesses left. -/
theorem witness_reaches_declared (left : List Nat) (w : Working) (hne : left ≠ [])
    (hdrop : Config.witnesses.drop w.wi.toNat = left) (ha : 0 < w.a.toNat) (hk : 0 < w.k.toNat) :
    ∃ w', Reaches (.witness, w) (.declared (witnessLoop w.a.toNat w.q.toNat w.k.toNat left), w') := by
  induction left generalizing w with
  | nil => exact absurd rfl hne
  | cons a rest ih =>
    have hcur := currentWitness_of_drop hdrop
    rw [witnessLoop]
    by_cases han : a = w.a.toNat
    · refine ⟨w, .head ?_⟩
      simp only [advance, takeWitness, if_pos (hcur.trans han), if_pos han]
      exact .refl _
    · obtain ⟨w', ⟨⟨-, ha', -⟩, hq', hk', hwi'⟩, hw'⟩ :=
        witness_reaches_afterWitness w ha hk (hcur ▸ han)
      rw [hcur] at hw'
      rw [if_neg han]
      cases hpass : witnessPasses w.a.toNat w.q.toNat w.k.toNat a with
      | false =>
        rw [hpass] at hw'
        exact ⟨w', hw'⟩
      | true =>
        rw [hpass] at hw'
        rw [← hwi'] at hdrop
        simp only [afterWitness, if_true] at hw' ⊢
        obtain ⟨rfl, hnext⟩ | ⟨hrest, hnext, hdrop'⟩ := nextWitness_of_drop hdrop <;> rw [hnext] at hw'
        · exact ⟨w', hw'⟩
        · obtain ⟨w'', hw''⟩ :=
            ih { w' with wi := w'.wi + 1#4 } hrest hdrop' (ha'.symm ▸ ha) (hk'.symm ▸ hk)
          rw [← ha', ← hq', ← hk']
          exact ⟨w'', hw'.trans hw''⟩

/-! ### The whole test -/

theorem mrGuard_eq_false_iff (n : Nat) : mrGuard n = false ↔ n = 2 ∨ (3 ≤ n ∧ n % 2 = 1) := by
  simp only [mrGuard, Bool.or_eq_false_iff, Bool.and_eq_false_iff, beq_eq_false_iff_ne, bne_eq_false_iff_eq]
  omega

/-- An even number is halved at least once. -/
theorem halveLoop_snd_pos {fuel q k : Nat} (h : q % 2 = 0) : 0 < (halveLoop (fuel + 1) q k).2 := by
  rw [halveLoop, if_pos h]
  exact (Nat.succ_pos k).trans_le (le_halveLoop_snd _ _ _)

theorem two_reaches_declared {w : Working} (hwi : w.wi = 0#4) (h2 : w.a.toNat = 2) :
    Reaches (.witness, w) (.declared true, w) := by
  have hcur : currentWitness w = w.a.toNat := by rw [currentWitness, hwi, h2]; rfl
  refine .head ?_
  simp only [advance, takeWitness, if_pos hcur]
  exact .refl _

/-- MRTEST's sequence declares the verdict of `millerRabin` (R140-R142). -/
theorem mrtest_reaches (w : Working) :
    ∃ w', Reaches (initialise .mrtest w) (.declared (millerRabin w.a.toNat), w') := by
  unfold millerRabin
  by_cases hg : mrGuard w.a.toNat = true
  · refine ⟨w, ?_⟩
    simp only [initialise, if_pos hg]; exact .refl _
  · have hn := (mrGuard_eq_false_iff _).1 (Bool.not_eq_true _ ▸ hg)
    have hq : (w.a - 1#64).toNat = w.a.toNat - 1 := (eq_sub_one_iff (by omega)).1 rfl
    obtain ⟨w₁, hhalve, ⟨-, ha', -⟩, hwi, hqk⟩ := halve_reaches 64 { w with q := w.a - 1#64, k := 0#6 }
      (by simp only [hq]; omega) (by simp only [hq]; omega) (by simp)
    have ha : w₁.a = w.a := ha'
    simp only [hq, BitVec.toNat_ofNat, Nat.zero_mod] at hqk
    simp only [initialise, if_neg hg, ← hqk]
    obtain h2 | ⟨h3, hodd⟩ := hn
    · have hloop (q k : Nat) : witnessLoop w.a.toNat q k Config.witnesses = true := by
        rw [h2]; rfl
      rw [hloop]
      exact ⟨w₁, hhalve.trans (two_reaches_declared hwi (ha ▸ h2))⟩
    · have hk : 0 < w₁.k.toNat := by
        rw [show w₁.k.toNat = _ from congrArg Prod.snd hqk]
        exact halveLoop_snd_pos (by omega)
      obtain ⟨w', hw'⟩ := witness_reaches_declared Config.witnesses w₁ (by decide) (by rw [hwi]; rfl)
        (by rw [ha]; omega) hk
      rw [ha] at hw'
      exact ⟨w', hhalve.trans hw'⟩

/-! ### The agreement with the completion (R42) -/

/-- MINV's sequence ends with the inverse, not 0, in W.X1, or with W.D1 ≠ 1. -/
theorem minv_initialise_reaches {w : Working} (hop : w.op = opcodeOf .minv) (hm : 0 < w.m.toNat) :
    ∃ w', Reaches (initialise .minv w) (.finished, w') ∧ (w'.d1 = 1#64 → w'.x1 ≠ 0#64) ∧
      toWord (modInv w.a.toNat w.m.toNat) = if w'.d1 = 1#64 then w'.x1 else 0#64 := by
  have hinv := euclidInv_start (a := w.a.toNat) hm
  have hput := euclidOf_putEuclid w hinv w.m.isLt
  set w₀ := putEuclid w { d0 := w.m.toNat, x0 := 0, d1 := w.a.toNat % w.m.toNat, x1 := 1 % w.m.toNat }
  have hprod : w₀.d0.toNat * w₀.d1.toNat < 2 ^ 128 := by
    have h := Nat.mul_lt_mul'' w₀.d0.isLt w₀.d1.isLt
    rwa [← pow_add] at h
  obtain ⟨w', hw', hinv', hres⟩ := minv_reaches 128 w₀ hop hm (hput.symm ▸ hinv) hprod
  have hd1 : w'.d1 = 1#64 ↔ (euclidOf w').d1 = 1 :=
    ⟨fun h => by simp [euclidOf, h], fun h => BitVec.eq_of_toNat_eq h⟩
  refine ⟨w', hw', fun h hx => hinv'.x1_ne_zero (hd1.1 h) (toNat_eq_zero_iff.1 hx), ?_⟩
  have hmod : modInv w.a.toNat w.m.toNat = euclidResult (euclidOf w') := by
    rw [hres, hput]; rfl
  simp only [hmod, euclidResult, hd1]
  split
  · exact BitVec.eq_of_toNat_eq (toWord_toNat w'.x1.isLt)
  · rfl

/-- Settles O41: command by command, from where the acceptance starts to where the sequence ends. -/
theorem referenceSequenceAgreesWithCompletion : Obligations.ReferenceSequenceAgreesWithCompletion := by
  intro s c hop hm
  have hok : runnable s.w = .ok c := runnable_eq_ok.2 ⟨hop, hm⟩
  have hcomplete : complete s = .next (completeCommand c s) := complete_eq_next.2 ⟨c, hok, rfl⟩
  have hexact := commandResult_toNat hok
  have hpos := modulus_pos hok
  rw [completeCommand_eq] at hcomplete
  cases c with
  | madd | msub =>
    refine ⟨1, .finished, s.w, _, ?_, hcomplete, rfl, hexact⟩
    simp only [initialise, advanceN, advance, loopStep, hop, commandOfOpcode_opcodeOf]
  | mmul =>
    have hm := hpos nofun
    obtain ⟨w', ⟨k, hk⟩, hacc⟩ := mmul_scanCommand.reaches_of_start hop hm
      { acc := 0, base := s.w.a.toNat % s.w.m.toNat, e := s.w.b.toNat } ⟨hm, Nat.mod_lt _ hm, s.w.b.isLt⟩
    exact ⟨k, .finished, w', _, hk, hcomplete, rfl, BitVec.eq_of_toNat_eq (hexact.trans hacc.symm)⟩
  | mpow =>
    have hm := hpos nofun
    obtain ⟨w', ⟨k, hk⟩, hacc⟩ := mpow_scanCommand.reaches_of_start hop hm
      { acc := 1 % s.w.m.toNat, base := s.w.a.toNat % s.w.m.toNat, e := s.w.b.toNat }
      ⟨Nat.mod_lt _ hm, Nat.mod_lt _ hm, s.w.b.isLt⟩
    exact ⟨k, .finished, w', _, hk, hcomplete, rfl, BitVec.eq_of_toNat_eq (hexact.trans hacc.symm)⟩
  | mrtest =>
    obtain ⟨w', k, hk⟩ := mrtest_reaches s.w
    refine ⟨k, _, w', _, hk, hcomplete, ?_⟩
    rw [commandResult_mrtest]
    cases millerRabin s.w.a.toNat <;> exact ⟨rfl, rfl⟩
  | minv =>
    obtain ⟨w', ⟨k, hk⟩, hx, hres⟩ := minv_initialise_reaches hop (hpos nofun)
    refine ⟨k, .finished, w', _, hk, hcomplete, rfl, hres, ?_⟩
    have hflag : noinvAfter .minv (commandResult .minv s.w) s.status.noinv = true ↔
        commandResult .minv s.w = 0#64 := by simp [noinvAfter]
    refine hflag.trans ?_
    rw [show commandResult .minv s.w = _ from hres]
    by_cases h1 : w'.d1 = 1#64
    · simp [h1, hx h1]
    · simp [h1]

end Sys2Proof.Machine
end

section
/-! PROOFS. The host's events: which instruction a word's event performs, that a read shows a register and keeps
the rest, and what the adapter makes of a bus access (R53, R54, R56, R60, R79). -/

namespace Sys2Proof.Machine

/-! ### Events and the instructions they perform -/

/-- A host transaction, however it is spelled, is performed as its instruction. -/
theorem perform_of_eventInstr {ev : Event} {i : Instr} (h : eventInstr ev = some i) (s : State) :
    perform ev s = exec i s := by
  cases ev with
  | xact x | cmd v => cases h; rfl
  | bus access =>
    cases hb : busTransaction access with
    | ok j =>
      simp only [eventInstr, hb, Except.toOption, Option.some.injEq] at h
      simp only [perform, hb, h]
    | error r => simp [eventInstr, hb, Except.toOption] at h
  | tick | complete | hardReset presented => cases h

theorem transactionOf_of_decodeXact {x : XactWord} {i : Instr} (h : decodeXact x = .ok i) :
    transactionOf x = i := by
  unfold decodeXact at h
  split at h
  · exact Except.ok.inj h
  · cases h

theorem commandInstr_of_decodeCommand {v : Word} {c : Command} (h : decodeCommand v = .ok c) :
    commandInstr v = Instr.ofCommand c := by
  simp only [commandInstr, h]

/-- Settles O6: the event at the head of the list performs the instruction its word decodes to. -/
theorem stepRunsTheDecodedInstruction : Obligations.StepRunsTheDecodedInstruction := by
  refine fun s rest i => ⟨fun x hev hx => ?_, fun v c hev hv => ?_⟩
  · rw [step_of_events hev, ← transactionOf_of_decodeXact hx]; rfl
  · rw [step_of_events hev, ← commandInstr_of_decodeCommand hv]; rfl

/-! ### Words of the opcode table (R70, R71) -/

theorem decode_bytesLE_eight {w : Nat} (h : w < 2 ^ 64) :
    decode (bytesLE 8 w) = (decodeCommand (BitVec.ofNat 64 w)).map Instr.ofCommand := by
  rw [decode, if_pos (bytesLE_length 8 w), ofBytesLE_bytesLE 8 w h]

theorem decode_bytesLE_nine {w : Nat} (h : w < 2 ^ 72) :
    decode (bytesLE 9 w) = if w < 2 ^ 68 then decodeXact (BitVec.ofNat 68 w) else .error .paddingBits := by
  rw [decode, bytesLE_length, if_neg (by decide), if_pos rfl, ofBytesLE_bytesLE 9 w h]

theorem decode_of_decodeTableWord {nbits w : Nat} {i : Instr} (h : decodeTableWord nbits w = some i) :
    w < 2 ^ (8 * formatBytes nbits) ∧ decode (bytesLE (formatBytes nbits) w) = .ok i := by
  unfold decodeTableWord at h
  split at h
  · rename_i hw
    cases hd : decode (bytesLE (formatBytes nbits) w) with
    | ok j => rw [hd] at h; exact ⟨hw, congrArg _ (Option.some.inj h)⟩
    | error e => rw [hd] at h; cases h
  · cases h

/-- The event that presents a table word is the instruction the decoder reads from the word. -/
theorem eventInstr_eventOfWord {nbits w : Nat} {i : Instr} (h : decodeTableWord nbits w = some i) :
    eventInstr (eventOfWord nbits w) = some i := by
  obtain ⟨hw, hd⟩ := decode_of_decodeTableWord h
  by_cases hn : nbits ≤ 64
  · simp only [formatBytes, if_pos hn] at hw hd
    rw [decode_bytesLE_eight hw] at hd
    cases hc : decodeCommand (BitVec.ofNat 64 w) with
    | ok c =>
      rw [hc] at hd
      simp only [eventOfWord, if_pos hn, eventInstr, commandInstr_of_decodeCommand hc]
      exact congrArg _ (Except.ok.inj hd)
    | error e => rw [hc] at hd; cases hd
  · simp only [formatBytes, if_neg hn] at hw hd
    rw [decode_bytesLE_nine hw] at hd
    split at hd
    · simp only [eventOfWord, if_neg hn, eventInstr, transactionOf_of_decodeXact hd]
    · cases hd

theorem step_withFetchWord (s : State) (nbits w : Nat) :
    step (s.withFetchWord nbits w) = perform (eventOfWord nbits w) { s with rdata := none } := rfl

/-- Settles O7: the presented word's event performs what the decoder reads from the word. -/
theorem fetchedWordRunsNext : Obligations.FetchedWordRunsNext := by
  intro s nbits w i h
  rw [step_withFetchWord, perform_of_eventInstr (eventInstr_eventOfWord h)]

/-! ### Reads (R56) -/

/-- The port's output is no register: what a read returns does not depend on it. -/
@[simp] theorem portRead_with_rdata (reg : PortReg) (s : State) (o : Option Word) :
    portRead reg { s with rdata := o } = portRead reg s := by
  cases reg <;> rfl

/-- Settles O12: a read sets the port's output only, which no read depends on. -/
theorem readsHaveNoSideEffects : Obligations.ReadsHaveNoSideEffects := by
  intro reg d d' s t h
  cases h
  exact ⟨rfl, by simp only [exec_regrd, portRead_with_rdata]⟩

/-! ### The adapter (R53, R54) -/

/-- The lowest byte address of a bus access. -/
def BusAccess.addr : BusAccess → Nat
  | .load addr _ => addr
  | .store addr _ => addr

/-- How many bytes a bus access moves. -/
def BusAccess.size : BusAccess → Nat
  | .load _ size => size
  | .store _ bytes => bytes.length

/-- The transaction of a bus access that names register `reg`: a read for a load, a write for a store. -/
def BusAccess.transaction (reg : PortReg) : BusAccess → Instr
  | .load _ _ => .regrd reg 0#64
  | .store _ bytes => .regwr reg (BitVec.ofNat 64 (ofBytesLE bytes))

theorem busTransaction_eq_outsideWindow {access : BusAccess} (h : regAtAddress access.addr = none) :
    busTransaction access = .error .outsideWindow := by
  cases access with
  | load addr size | store addr bytes =>
    simp only [BusAccess.addr] at h
    simp only [busTransaction, h]

theorem busTransaction_eq_ok {access : BusAccess} {reg : PortReg} (h : regAtAddress access.addr = some reg)
    (h8 : access.size = 8 ∧ access.addr % 8 = 0) : busTransaction access = .ok (access.transaction reg) := by
  cases access with
  | load addr size | store addr bytes =>
    simp only [BusAccess.addr, BusAccess.size] at h h8
    simp only [busTransaction, h, if_pos h8, BusAccess.transaction]

theorem busTransaction_eq_notAligned {access : BusAccess} {reg : PortReg}
    (h : regAtAddress access.addr = some reg) (h8 : ¬ (access.size = 8 ∧ access.addr % 8 = 0)) :
    busTransaction access = .error .notAlignedDoubleword := by
  cases access with
  | load addr size | store addr bytes =>
    simp only [BusAccess.addr, BusAccess.size] at h h8
    simp only [busTransaction, h, if_neg h8]

/-- The adapter has two reasons to refuse an access. -/
theorem busTransaction_error_cases {access : BusAccess} {r : Refusal} (h : busTransaction access = .error r) :
    r = .outsideWindow ∨ r = .notAlignedDoubleword := by
  cases hreg : regAtAddress access.addr with
  | none => exact .inl (Except.error.inj (h.symm.trans (busTransaction_eq_outsideWindow hreg)))
  | some reg =>
    by_cases h8 : access.size = 8 ∧ access.addr % 8 = 0
    · cases h.symm.trans (busTransaction_eq_ok hreg h8)
    · exact .inr (Except.error.inj (h.symm.trans (busTransaction_eq_notAligned hreg h8)))

theorem perform_bus_of_error {access : BusAccess} {r : Refusal} (h : busTransaction access = .error r)
    (s : State) : perform (.bus access) s = .refused r := by
  simp only [perform, h]

/-- An address of the block's 64 bytes names a register. -/
theorem exists_regAtAddress {addr : Nat} (hlo : Config.base ≤ addr) (hhi : addr < Config.base + 64) :
    ∃ reg, regAtAddress addr = some reg :=
  ⟨_, if_pos ⟨hlo, hhi⟩⟩

theorem regAtAddress_eq_none {addr : Nat} (h : addr < Config.base ∨ Config.base + 64 ≤ addr) :
    regAtAddress addr = none :=
  if_neg (by omega)

/-- Register `reg` stands at `BASE + 8·idx` (R53). -/
theorem regAtAddress_of_indexOf (reg : PortReg) :
    regAtAddress (Config.base + 8 * (indexOf reg).toNat) = some reg := by
  have hidx : (indexOf reg).toNat < 8 := (indexOf reg).isLt
  have hdiv : (Config.base + 8 * (indexOf reg).toNat - Config.base) / 8 = (indexOf reg).toNat := by omega
  rw [regAtAddress, if_pos (by omega), hdiv, BitVec.ofNat_toNat, BitVec.setWidth_eq, regOfIndex_indexOf]

theorem registerAddress_aligned (reg : PortReg) : (Config.base + 8 * (indexOf reg).toNat) % 8 = 0 := by
  simp only [Config.base]; omega

/-- An 8-byte access at a register's address is performed as the transaction on that register. -/
theorem perform_bus_of_registerAddress {access : BusAccess} {reg : PortReg}
    (haddr : access.addr = Config.base + 8 * (indexOf reg).toNat) (hsize : access.size = 8) (s : State) :
    perform (.bus access) s = exec (access.transaction reg) s := by
  have hok : busTransaction access = .ok (access.transaction reg) :=
    busTransaction_eq_ok (haddr ▸ regAtAddress_of_indexOf reg) ⟨hsize, haddr ▸ registerAddress_aligned reg⟩
  simp only [perform, hok]

/-- Byte `j` of the little-endian layout holds bits 8j+7:8j. -/
theorem getElem?_bytesLE {n j : Nat} (w : Nat) (h : j < n) :
    (bytesLE n w)[j]? = some (BitVec.ofNat 8 (w / 2 ^ (8 * j))) := by
  induction n generalizing w j with
  | zero => exact absurd h (Nat.not_lt_zero j)
  | succ n ih =>
    cases j with
    | zero => simp [bytesLE]
    | succ j =>
      have hpow : 2 ^ (8 * (j + 1)) = 256 * 2 ^ (8 * j) := by rw [Nat.mul_add, Nat.pow_add]; omega
      rw [bytesLE, List.getElem?_cons_succ, ih (w / 256) (Nat.lt_of_succ_lt_succ h), hpow,
        Nat.div_div_eq_div_mul]

theorem toNat_of_getElem?_bytesLE {n w j : Nat} {b : Byte} (h : (bytesLE n w)[j]? = some b) :
    b.toNat = w / 2 ^ (8 * j) % 256 := by
  have hj : j < n := by simpa using (List.getElem?_eq_some_iff.1 h).1
  rw [getElem?_bytesLE w hj, Option.some.injEq] at h
  rw [← h, BitVec.toNat_ofNat]

/-- The little-endian layout is the only list of its length with these bytes. -/
theorem eq_bytesLE {n w : Nat} {bs : List Byte} (hlen : bs.length = n)
    (hbs : ∀ (j : Nat) (b : Byte), bs[j]? = some b → b.toNat = w / 2 ^ (8 * j) % 256) : bs = bytesLE n w := by
  refine List.ext_getElem (by rw [hlen, bytesLE_length]) fun j hj hj' => BitVec.eq_of_toNat_eq ?_
  rw [hbs j _ (List.getElem?_eq_getElem hj), toNat_of_getElem?_bytesLE (List.getElem?_eq_getElem hj')]

/-- Settles O18: the address names the register, and eight bytes with the value's bits are its layout. -/
theorem adapterReachesTheRegisterAtItsAddress : Obligations.AdapterReachesTheRegisterAtItsAddress := by
  refine fun reg v s => ⟨?_, fun bytes hlen hbytes => ?_⟩
  · exact ⟨_, bytesLE 8 (portRead reg s).toNat, perform_bus_of_registerAddress rfl rfl s, rfl, rfl,
      bytesLE_length 8 _, fun _ _ => toNat_of_getElem?_bytesLE⟩
  · have hv : BitVec.ofNat 64 (ofBytesLE bytes) = v := by
      rw [eq_bytesLE hlen hbytes, ofBytesLE_bytesLE 8 v.toNat v.isLt, BitVec.ofNat_toNat, BitVec.setWidth_eq]
    rw [perform_bus_of_registerAddress (access := .store _ bytes) (reg := reg) rfl hlen,
      BusAccess.transaction, hv]

/-- An access of the block's window that is no aligned 8-byte one is refused. -/
theorem perform_bus_notAligned {access : BusAccess} (hlo : Config.base ≤ access.addr)
    (hhi : access.addr < Config.base + 64) (h : access.addr % 8 ≠ 0 ∨ access.size ≠ 8) (s : State) :
    perform (.bus access) s = .refused .notAlignedDoubleword := by
  obtain ⟨reg, hreg⟩ := exists_regAtAddress hlo hhi
  exact perform_bus_of_error (busTransaction_eq_notAligned hreg (by omega)) s

/-- An access outside the block's window is refused. -/
theorem perform_bus_outsideWindow {access : BusAccess}
    (h : access.addr < Config.base ∨ Config.base + 64 ≤ access.addr) (s : State) :
    perform (.bus access) s = .refused .outsideWindow :=
  perform_bus_of_error (busTransaction_eq_outsideWindow (regAtAddress_eq_none h)) s

/-- Settles O19: in the window by alignment and size, outside it by the address alone. -/
theorem adapterRefusesAccessesOutsideTheInterface :
    Obligations.AdapterRefusesAccessesOutsideTheInterface := fun addr size bytes s =>
  ⟨fun hlo hhi h => perform_bus_notAligned (access := .load addr size) hlo hhi h s,
    fun hlo hhi h => perform_bus_notAligned (access := .store addr bytes) hlo hhi h s,
    fun h => ⟨perform_bus_outsideWindow (access := .load addr size) h s,
      perform_bus_outsideWindow (access := .store addr bytes) h s⟩⟩

/-! ### Refusals (R54, R77, R173) -/

theorem exec_ne_refused (i : Instr) (s : State) (r : Refusal) : exec i s ≠ .refused r := by
  obtain ⟨t, ht⟩ := exec_answers_next i s
  rw [ht]; exact nofun

theorem tick_ne_refused (s : State) (r : Refusal) : tick s ≠ .refused r := by
  unfold tick
  split
  · exact nofun
  · split <;> exact nofun

theorem completeIfRunning_ne_refused (s : State) (r : Refusal) : completeIfRunning s ≠ .refused r := by
  unfold completeIfRunning complete
  split
  · exact nofun
  · split <;> exact nofun

/-- An event is refused only by the adapter. -/
theorem perform_eq_refused {ev : Event} {s : State} {r : Refusal} (h : perform ev s = .refused r) :
    ∃ access, ev = .bus access ∧ busTransaction access = .error r := by
  cases ev with
  | xact x | cmd v => exact absurd h (exec_ne_refused _ s r)
  | bus access =>
    cases hb : busTransaction access with
    | ok i =>
      simp only [perform, hb] at h
      exact absurd h (exec_ne_refused i s r)
    | error r' =>
      rw [perform_bus_of_error hb] at h
      cases h
      exact ⟨access, rfl, hb⟩
  | tick => exact absurd h (tick_ne_refused s r)
  | complete => exact absurd h (completeIfRunning_ne_refused s r)
  | hardReset presented => cases h

/-- Settles O40: the event at the head of the list is refused by the adapter or not at all. -/
theorem onlyAccessesOutsideTheInterfaceAreRefused :
    Obligations.OnlyAccessesOutsideTheInterfaceAreRefused := by
  intro s r h
  cases hev : s.events with
  | nil =>
    simp only [step, hev] at h
    exact absurd h (completeIfRunning_ne_refused _ r)
  | cons ev rest =>
    rw [step_of_events hev] at h
    obtain ⟨access, rfl, hb⟩ := perform_eq_refused h
    exact ⟨access, rest, rfl, hb, busTransaction_error_cases hb⟩

end Sys2Proof.Machine
end

section
/-! PROOFS. Encoding (R70-R79): the decoder and the encoder are inverse to each other, the fields of a transaction
word stand at their bits, and a bare command is the write of its word to CMD. -/

namespace Sys2Proof.Machine

/-! ### Commands and transactions among the instructions -/

/-- Every instruction is a bare command or what some transaction word names (R77). -/
theorem instr_cases (i : Instr) : (∃ c, i = Instr.ofCommand c) ∨ ∃ x, i = transactionOf x := by
  cases i with
  | madd => exact .inl ⟨.madd, rfl⟩
  | msub => exact .inl ⟨.msub, rfl⟩
  | mmul => exact .inl ⟨.mmul, rfl⟩
  | mpow => exact .inl ⟨.mpow, rfl⟩
  | mrtest => exact .inl ⟨.mrtest, rfl⟩
  | minv => exact .inl ⟨.minv, rfl⟩
  | regrd reg data => exact .inr ⟨xactWord false reg data, by simp⟩
  | regwr reg data => exact .inr ⟨xactWord true reg data, by simp⟩

theorem wf_ofCommand (c : Command) : (Instr.ofCommand c).wf = true := by
  cases c <;> rfl

theorem encode_ofCommand (c : Command) : encode (Instr.ofCommand c) = bytesLE 8 (commandWord c).toNat := by
  cases c <;> rfl

/-- The encoding of the transaction a word names is that word's bytes. -/
theorem encode_transactionOf (x : XactWord) : encode (transactionOf x) = bytesLE 9 x.toNat := by
  have hx := xactWord_fields x
  unfold transactionOf
  cases hwe : weField x with
  | true | false =>
    rw [hwe] at hx
    simp only [Bool.false_eq_true, if_true, if_false, encode, hx]

/-! ### The decoders -/

/-- The legal command words are the encodings of the commands (R72, R76). -/
theorem decodeCommand_eq_ok_iff {v : Word} {c : Command} : decodeCommand v = .ok c ↔ v = commandWord c :=
  ⟨commandWord_of_decodeCommand, fun h => h ▸ decodeCommand_commandWord c⟩

/-- Transaction text is accepted where the transaction it names is well-formed (R77). -/
theorem decodeXact_eq_ok_iff {x : XactWord} {i : Instr} :
    decodeXact x = .ok i ↔ transactionOf x = i ∧ i.wf = true := by
  unfold decodeXact
  by_cases hwf : (transactionOf x).wf = true
  · rw [if_pos hwf, Except.ok.injEq]
    exact ⟨fun h => ⟨h, h ▸ hwf⟩, fun h => h.1⟩
  · rw [if_neg hwf]
    exact ⟨nofun, fun ⟨h, hi⟩ => absurd (h ▸ hi) hwf⟩

/-- Settles O2: a command decodes from its 8 bytes by its word, a transaction from its 9 bytes by its fields. -/
theorem decodeOfEncodeIsIdentity : Obligations.DecodeOfEncodeIsIdentity := by
  intro i hwf
  obtain ⟨c, rfl⟩ | ⟨x, rfl⟩ := instr_cases i
  · rw [encode_ofCommand, decode_bytesLE_eight (commandWord c).isLt, BitVec.ofNat_toNat, BitVec.setWidth_eq,
      decodeCommand_commandWord]
    rfl
  · rw [encode_transactionOf, decode_bytesLE_nine (x.isLt.trans (by decide)), if_pos x.isLt,
      BitVec.ofNat_toNat, BitVec.setWidth_eq, decodeXact_eq_ok_iff]
    exact ⟨rfl, hwf⟩

/-- What the decoder accepts: 8 bytes of a legal command word, or 9 bytes of well-formed transaction text. -/
theorem decode_eq_ok_cases {bs : List Byte} {i : Instr} (h : decode bs = .ok i) :
    (bs.length = 8 ∧ ∃ c, BitVec.ofNat 64 (ofBytesLE bs) = commandWord c ∧ i = Instr.ofCommand c) ∨
    (bs.length = 9 ∧ ofBytesLE bs < 2 ^ 68 ∧ transactionOf (BitVec.ofNat 68 (ofBytesLE bs)) = i ∧
      i.wf = true) := by
  unfold decode at h
  split at h
  · rename_i h8
    cases hc : decodeCommand (BitVec.ofNat 64 (ofBytesLE bs)) with
    | error e => rw [hc] at h; cases h
    | ok c =>
      rw [hc] at h
      exact .inl ⟨h8, c, decodeCommand_eq_ok_iff.1 hc, (Except.ok.inj h).symm⟩
  · split at h
    · rename_i h9
      split at h
      · rename_i h68
        exact .inr ⟨h9, h68, decodeXact_eq_ok_iff.1 h⟩
      · cases h
    · cases h

/-- Settles O3: the accepted word is the instruction's, and its bytes are the ones given. -/
theorem acceptedBytesAreTheEncoding : Obligations.AcceptedBytesAreTheEncoding := by
  intro bs i h
  have hbytes := bytesLE_ofBytesLE bs
  have hlt := ofBytesLE_lt bs
  obtain ⟨h8, c, hc, rfl⟩ | ⟨h9, h68, rfl, hwf⟩ := decode_eq_ok_cases h
  · rw [h8] at hbytes hlt
    refine ⟨wf_ofCommand c, ?_⟩
    rw [encode_ofCommand, ← hc, BitVec.toNat_ofNat, Nat.mod_eq_of_lt hlt, hbytes]
  · rw [h9] at hbytes
    refine ⟨hwf, ?_⟩
    rw [encode_transactionOf, BitVec.toNat_ofNat, Nat.mod_eq_of_lt h68, hbytes]

/-- Settles O4: the legal words are the six command words, which are the numbers 1 to 6. -/
theorem legalCommandWordsAreTheSixOpcodes : Obligations.LegalCommandWordsAreTheSixOpcodes := by
  intro v c
  rw [decodeCommand_eq_ok_iff]
  cases c <;> simp [commandWord, opcodeOf]

/-- Settles O5: the number of a word fixes its fields, and the transaction is read off them. -/
theorem transactionWordFieldsAreReadByPosition : Obligations.TransactionWordFieldsAreReadByPosition := by
  intro we reg v x hx
  obtain rfl : x = xactWord we reg v := BitVec.eq_of_toNat_eq (hx.trans (xactWord_toNat we reg v).symm)
  refine ⟨transactionOf_xactWord we reg v, fun s hwe => ?_⟩
  rw [perform_of_eventInstr rfl, transactionOf_xactWord, hwe]
  rfl

/-! ### Bare commands (R79) -/

/-- Every spelling of a command write performs the write of its word to CMD. -/
theorem exec_eq_exec_regwr_cmd {i : Instr} {v : Word} (h : commandOf i = some v) (s : State) :
    exec i s = exec (.regwr .cmd v) s :=
  exec_of_commandOf h s

theorem commandOf_ofCommand (c : Command) : commandOf (Instr.ofCommand c) = some (commandWord c) := by
  cases c <;> rfl

/-- The event of a bare command word writes that word to CMD, legal or not. -/
theorem commandOf_commandInstr (v : Word) : commandOf (commandInstr v) = some v := by
  unfold commandInstr
  cases hc : decodeCommand v with
  | ok c => rw [decodeCommand_eq_ok_iff.1 hc]; exact commandOf_ofCommand c
  | error e => rfl

/-- Settles O20: each bare command is a spelling of the write of its opcode. -/
theorem bareCommandIsAWriteOfItsOpcode : Obligations.BareCommandIsAWriteOfItsOpcode := fun s =>
  ⟨exec_eq_exec_regwr_cmd rfl s, exec_eq_exec_regwr_cmd rfl s, exec_eq_exec_regwr_cmd rfl s,
    exec_eq_exec_regwr_cmd rfl s, exec_eq_exec_regwr_cmd rfl s, exec_eq_exec_regwr_cmd rfl s⟩

/-- Settles O22: the event performs an instruction that writes the word to CMD. -/
theorem bareWordEventIsAWriteToCmd : Obligations.BareWordEventIsAWriteToCmd := fun v =>
  exec_eq_exec_regwr_cmd (commandOf_commandInstr v)

end Sys2Proof.Machine
end

section
/-! PROOFS. Host scripts (R78-R80): what every order of events that follows a script achieves, by one assertion for
each of its lines; with it what a `wait` and the call forms end with. -/

namespace Sys2Proof.Machine

/-! ### One event of a run of a script -/

theorem exec_of_sameTransaction {i j : Instr} (h : sameTransaction i j = true) (s : State) :
    exec i s = exec j s := by
  simp only [sameTransaction, Bool.or_eq_true, Bool.and_eq_true, beq_iff_eq, Option.isSome_iff_exists] at h
  obtain rfl | ⟨⟨v, hi⟩, hij⟩ := h
  · rfl
  · rw [exec_of_commandOf hi, exec_of_commandOf (hij ▸ hi)]

/-- Bit 0 of STATUS is BUSY (R26, R91). -/
theorem statusWord_getLsbD_zero (st : Status) : (statusWord st).getLsbD 0 = st.busy := by
  simp only [statusWord, BitVec.getLsbD_append]
  simp

/-- After a read of STATUS, the bit a `wait` tests is BUSY (R80). -/
theorem readBusy_status (s : State) : readBusy { s with rdata := some (statusWord s.status) } = s.status.busy :=
  statusWord_getLsbD_zero s.status

/-- The next event of a run is no transaction, or the transaction of the script's next line; a `wait` reads
STATUS, and stays while BUSY = 1. -/
theorem followsScript_cons {ev : Event} {rest : List Event} {line : ScriptLine} {more : List ScriptLine}
    {s : State} (h : followsScript (ev :: rest) (line :: more) s = true) :
    ∃ t, perform ev (beginEvent rest s) = .next t ∧
      ((eventInstr ev = none ∧ followsScript rest (line :: more) t = true) ∨
      (∃ j, line = .transact j ∧ exec j (beginEvent rest s) = .next t ∧ followsScript rest more t = true) ∨
      (line = .wait ∧ t = { beginEvent rest s with rdata := some (statusWord s.status) } ∧
        followsScript rest (if s.status.busy then .wait :: more else more) t = true)) := by
  unfold followsScript at h
  cases hp : perform ev (beginEvent rest s) with
  | fault r | refused r => rw [hp] at h; cases h
  | next t =>
    refine ⟨t, rfl, ?_⟩
    rw [hp] at h
    cases hi : eventInstr ev with
    | none => rw [hi] at h; exact .inl ⟨rfl, h⟩
    | some i =>
      rw [hi] at h
      rw [perform_of_eventInstr hi] at hp
      cases line with
      | transact j =>
        obtain ⟨hij, hrest⟩ := Bool.and_eq_true_iff.1 h
        exact .inr (.inl ⟨j, rfl, (exec_of_sameTransaction hij _).symm.trans hp, hrest⟩)
      | wait =>
        obtain ⟨hij, hrest⟩ := Bool.and_eq_true_iff.1 h
        obtain rfl := eq_of_beq hij
        obtain rfl := Host.Outcome.next.inj hp
        have hbusy := readBusy_status (beginEvent rest s)
        exact .inr (.inr ⟨rfl, rfl, hbusy ▸ hrest⟩)

/-! ### Assertions between the lines -/

/-- The assertion `P` survives what may happen between two lines: it does not look at the port's output or at
the list of events, and every allowed event that is no transaction keeps it. -/
structure Stable (allowed : Event → Prop) (P : State → Prop) : Prop where
  port : ∀ (s : State) (rdata : Option Word) (events : List Event), P s →
    P { s with rdata := rdata, events := events }
  quiet : ∀ {ev : Event} {s t : State}, allowed ev → eventInstr ev = none → perform ev s = .next t → P s → P t

/-- The script leads from `P` to `R`, by assertions between its lines; a `wait` goes on from a state with
BUSY = 0. -/
inductive ScriptRule (allowed : Event → Prop) (R : State → Prop) : (State → Prop) → List ScriptLine → Prop where
  | done : ScriptRule allowed R R []
  | transact {P Q : State → Prop} {j : Instr} {more : List ScriptLine} (hP : Stable allowed P)
      (hexec : ∀ s t, P s → exec j s = .next t → Q t) (hmore : ScriptRule allowed R Q more) :
      ScriptRule allowed R P (.transact j :: more)
  | wait {P Q : State → Prop} {more : List ScriptLine} (hP : Stable allowed P)
      (hidle : ∀ s, P s → s.status.busy = false → Q { s with rdata := some (statusWord s.status) })
      (hmore : ScriptRule allowed R Q more) : ScriptRule allowed R P (.wait :: more)

/-- After one event of a run, the script that is left leads on from an assertion that holds. -/
theorem ScriptRule.event {allowed : Event → Prop} {R P : State → Prop} {lines : List ScriptLine}
    (hrule : ScriptRule allowed R P lines) {ev : Event} {rest : List Event} {s : State} (hs : P s)
    (hev : allowed ev) (hfollows : followsScript (ev :: rest) lines s = true) :
    ∃ t Q lines', perform ev (beginEvent rest s) = .next t ∧ ScriptRule allowed R Q lines' ∧ Q t ∧
      followsScript rest lines' t = true := by
  cases lines with
  | nil => cases hfollows
  | cons line more =>
    obtain ⟨t, hp, ⟨hi, hf⟩ | ⟨j, rfl, he, hf⟩ | ⟨rfl, rfl, hf⟩⟩ := followsScript_cons hfollows
    · have ht : P t := by
        cases hrule with
        | transact hP | wait hP => exact hP.quiet hev hi hp (hP.port s none rest hs)
      exact ⟨t, P, _, hp, hrule, ht, hf⟩
    · cases hrule with
      | transact hP hexec hmore => exact ⟨t, _, more, hp, hmore, hexec _ t (hP.port s none rest hs) he, hf⟩
    · cases hrule with
      | wait hP hidle hmore =>
        cases hb : s.status.busy with
        | true =>
          rw [hb, if_pos rfl] at hf
          exact ⟨_, P, _, hp, .wait hP hidle hmore, hP.port s _ rest hs, hf⟩
        | false =>
          rw [hb, if_neg Bool.false_ne_true] at hf
          exact ⟨_, _, more, hp, hmore, hidle _ (hP.port s none rest hs) hb, hf⟩

/-- Every order of allowed events that follows the script ends where its assertions lead. -/
theorem ScriptRule.run {allowed : Event → Prop} {R P : State → Prop} {lines : List ScriptLine}
    (hrule : ScriptRule allowed R P lines) {events : List Event} {s : State} (hs : P s) (hev : s.events = events)
    (hallowed : ∀ ev ∈ events, allowed ev) (hfollows : followsScript events lines s = true) :
    ∃ t, Sys2Proof.core.run events.length s = .next t ∧ R t := by
  induction events generalizing P lines s with
  | nil =>
    cases hrule with
    | done => exact ⟨s, rfl, hs⟩
    | transact | wait => cases hfollows
  | cons ev rest ih =>
    obtain ⟨hok, hrest⟩ := List.forall_mem_cons.1 hallowed
    obtain ⟨t, Q, lines', hp, hrule', ht, hf⟩ := hrule.event hs hok hfollows
    obtain ⟨u, hrun, hu⟩ := ih hrule' ht (effect_of_perform hp).events hrest hf
    exact ⟨u, (run_succ ((step_of_events hev).trans hp) rest.length).trans hrun, hu⟩

/-! ### A wait (R80) -/

theorem statusWord_toNat_mod_two {st : Status} (h : st.busy = false) : (statusWord st).toNat % 2 = 0 := by
  have hodd := mt toNat_odd_iff.2 (ne_true_of_eq_false ((statusWord_getLsbD_zero st).trans h))
  exact Nat.mod_two_ne_one.1 hodd

/-- Settles O44: the invariant is kept between the reads, and where it holds BUSY = 0 means IDLE. -/
theorem waitEndsWithTheBlockIdle : Obligations.WaitEndsWithTheBlockIdle := by
  intro s hinv hfollows
  have hrule : ScriptRule (fun _ => True)
      (fun t => ∃ v : Word, t.rdata = some v ∧ v.toNat % 2 = 0 ∧ running t = false) Inv [.wait] :=
    .wait ⟨fun _ _ _ h => h, fun _ _ hp h => perform_inv h hp⟩
      (fun u hu hb => ⟨_, rfl, statusWord_toNat_mod_two hb, running_eq_false.2 (idle_of_not_busy hu.1 hb)⟩) .done
  obtain ⟨t, hrun, v, hread, hv, hidle⟩ := hrule.run hinv rfl (fun _ _ => trivial) hfollows
  exact ⟨t, v, hrun, hread, hv, hidle⟩

/-! ### The assertions of a call form (R80) -/

/-- Between two lines, without a reset, an idle block does nothing and a running one iterates or completes. -/
theorem quiet_cases {ev : Event} {s t : State} (hr : resets ev = false) (hi : eventInstr ev = none)
    (hp : perform ev s = .next t) :
    t = s ∨ ∃ pos, s.seq = .run pos ∧
      (t = { s with seq := .run (advance (pos, s.w)).1, w := (advance (pos, s.w)).2 } ∨
        ∃ c, runnable s.w = .ok c ∧ t = completeCommand c s) := by
  cases effect_of_perform hp with
  | overrun hv | raised hv | accepted hv => simp [commandWritten, hi] at hv
  | reset hr' => rw [hr'] at hr; cases hr
  | control hi' | status hi' | opa hi' | opb hi' | opm hi' | read hi' => rw [hi] at hi'; cases hi'
  | ignored | idle => exact .inl rfl
  | iterated hq => exact .inr ⟨_, hq, .inl rfl⟩
  | completed hq hc =>
    obtain ⟨pos, hq⟩ := running_eq_true.1 hq
    exact .inr ⟨pos, hq, .inr ⟨_, hc, rfl⟩⟩

/-- The block is idle with operands in `K`. -/
def Ready (K : Word → Word → Word → Prop) (s : State) : Prop :=
  Inv s ∧ s.status.busy = false ∧ K s.opa s.opb s.opm

/-- The block is idle with `n` in RESULT. -/
def Answered (n : Nat) (s : State) : Prop := Inv s ∧ running s = false ∧ s.result.toNat = n

/-- The engine runs a command whose result is `n`. -/
def Computing (n : Nat) (s : State) : Prop :=
  Inv s ∧ running s = true ∧ ∃ c, runnable s.w = .ok c ∧ (commandResult c s.w).toNat = n

theorem Ready.idle {K : Word → Word → Word → Prop} {s : State} (h : Ready K s) : s.seq = .idle := by
  obtain ⟨⟨hstatus, -⟩, hb, -⟩ := h
  exact idle_of_not_busy hstatus hb

theorem Computing.busy {n : Nat} {s : State} (h : Computing n s) : s.status.busy = true := by
  obtain ⟨⟨⟨hb, -⟩, -⟩, hr, -⟩ := h
  exact hb.trans hr

theorem Ready.stable (K : Word → Word → Word → Prop) : Stable (resets · = false) (Ready K) where
  port _ _ _ h := h
  quiet hr hi hp h := by
    obtain rfl | ⟨pos, hq, -⟩ := quiet_cases hr hi hp
    · exact h
    · rw [h.idle] at hq; cases hq

theorem Answered.stable (n : Nat) : Stable (resets · = false) (Answered n) where
  port _ _ _ h := h
  quiet hr hi hp h := by
    obtain rfl | ⟨pos, hq, -⟩ := quiet_cases hr hi hp
    · exact h
    · obtain ⟨-, hidle, -⟩ := h
      rw [running_eq_false.1 hidle] at hq; cases hq

/-- What follows from a running command, short of a reset: it runs on, or its result stands in RESULT. -/
theorem Computing.quiet {n : Nat} {ev : Event} {s t : State} (h : Computing n s) (hr : resets ev = false)
    (hi : eventInstr ev = none) (hp : perform ev s = .next t) : Computing n t ∨ Answered n t := by
  have hinv := perform_inv h.1 hp
  have ⟨_, _, c, hc, hn⟩ := h
  obtain rfl | ⟨pos, -, rfl | ⟨c', hc', rfl⟩⟩ := quiet_cases hr hi hp
  · exact .inl h
  · have hsame := advance_same (pos, s.w)
    exact .inl ⟨hinv, rfl, c, (runnable_of_same hsame).trans hc, by rw [commandResult_of_same hsame, hn]⟩
  · cases hc.symm.trans hc'
    rw [completeCommand_eq] at hinv ⊢
    exact .inr ⟨hinv, rfl, hn⟩

theorem stable_computing_or_answered (n : Nat) :
    Stable (resets · = false) (fun s => Computing n s ∨ Answered n s) where
  port _ _ _ h := h
  quiet hr hi hp h := h.elim (fun h => h.quiet hr hi hp) fun h => .inr ((Answered.stable n).quiet hr hi hp h)

/-! ### The lines of a call form (R80) -/

/-- The end of every call form: the command, the wait and the read of RESULT. -/
theorem scriptRule_command (c : Command) (n : Nat) :
    ScriptRule (resets · = false) (fun t => ∃ v : Word, t.rdata = some v ∧ v.toNat = n)
      (Ready fun a b m => (c = .mrtest ∨ m ≠ 0#64) ∧ exactResult c a.toNat b.toNat m.toNat = n)
      [.transact (Instr.ofCommand c), .wait, .transact (readOf .result)] := by
  refine .transact (Q := fun s => Computing n s ∨ Answered n s) (Ready.stable _) ?_
    (.wait (Q := Answered n) (stable_computing_or_answered n) ?_ (.transact (Answered.stable n) ?_ .done))
  · rintro s t ⟨hinv, hb, hm, hn⟩ ht
    rw [exec_ofCommand, commandWrite_accepted hb (decodeCommand_commandWord c) hm] at ht
    cases ht
    have hsame := initialise_same c (latchOperands c { s with lastCmd := commandWord c })
    have hc : runnable (latchOperands c { s with lastCmd := commandWord c }) = .ok c :=
      runnable_eq_ok.2 ⟨rfl, hm⟩
    refine .inl ⟨inv_accept hm, rfl, c, (runnable_of_same hsame).trans hc, ?_⟩
    rw [accept_w, commandResult_of_same hsame, commandResult_toNat hc]
    exact hn
  · rintro s (h | h) hb
    · rw [h.busy] at hb; cases hb
    · exact h
  · rintro s t ⟨-, -, hn⟩ ht
    cases ht
    exact ⟨_, rfl, hn⟩

section
variable {R : State → Prop} {K : Word → Word → Word → Prop} {more : List ScriptLine} (v : Word)
  (hmore : ScriptRule (resets · = false) R (Ready K) more)
include hmore

theorem scriptRule_writeOpa :
    ScriptRule (resets · = false) R (Ready fun _ b m => K v b m) (.transact (.regwr .opa v) :: more) :=
  .transact (Ready.stable _) (by rintro s t h ht; cases ht; exact h) hmore

theorem scriptRule_writeOpb :
    ScriptRule (resets · = false) R (Ready fun a _ m => K a v m) (.transact (.regwr .opb v) :: more) :=
  .transact (Ready.stable _) (by rintro s t h ht; cases ht; exact h) hmore

theorem scriptRule_writeOpm :
    ScriptRule (resets · = false) R (Ready fun a b _ => K a b v) (.transact (.regwr .opm v) :: more) :=
  .transact (Ready.stable _) (by rintro s t h ht; cases ht; exact h) hmore

end

/-- From an idle block, a call form ends with a read of the exact result on its operands; the operand registers
it does not write are of no account to its command. -/
theorem exists_scriptRule_callForm (c : Command) (a b m : Word) (hm : c = .mrtest ∨ m ≠ 0#64) {s : State}
    (hinv : Inv s) (hb : s.status.busy = false) :
    ∃ P : State → Prop, P s ∧
      ScriptRule (resets · = false)
        (fun t => ∃ v : Word, t.rdata = some v ∧ v.toNat = exactResult c a.toNat b.toNat m.toNat) P
        (callForm c a b m) := by
  have hcommand := scriptRule_command c (exactResult c a.toNat b.toNat m.toNat)
  cases c with
  | madd | msub | mmul | mpow =>
    exact ⟨_, ⟨hinv, hb, hm, rfl⟩,
      scriptRule_writeOpa a (scriptRule_writeOpb b (scriptRule_writeOpm m hcommand))⟩
  | mrtest => exact ⟨_, ⟨hinv, hb, .inl rfl, rfl⟩, scriptRule_writeOpa a hcommand⟩
  | minv =>
    exact ⟨_, ⟨hinv, hb, hm, rfl⟩, scriptRule_writeOpa a (scriptRule_writeOpm m hcommand)⟩

/-- Settles O45: the call form leads to a read of the exact result, which for each command is the value
claimed. -/
theorem callFormReadsTheCommandsResult : Obligations.CallFormReadsTheCommandsResult := by
  intro s c a b m hinv hb hm hfollows hallowed
  obtain ⟨P, hs, hrule⟩ := exists_scriptRule_callForm c a b m hm hinv hb
  obtain ⟨t, hrun, v, hread, hv⟩ := hrule.run hs rfl hallowed hfollows
  refine ⟨t, v, hrun, hread, ?_⟩
  have hpos (hc : c ≠ .mrtest) : 0 < m.toNat := toNat_pos_of_ne_zero (hm.resolve_left hc)
  rw [hv]
  refine ⟨?_, ?_, ?_, ?_, ?_, ?_⟩ <;> rintro rfl
  · exact modAdd_eq _ _ (hpos nofun)
  · exact modSub_eq _ _ (hpos nofun)
  · exact modMul_eq _ (hpos nofun) b.isLt
  · exact modPow_eq _ (hpos nofun) m.isLt.le b.isLt
  · rw [exactResult]; cases millerRabin a.toNat <;> rfl
  · rfl

end Sys2Proof.Machine
end

section
/-! PROOFS. The command protocol of the port: what a read returns and what a write leaves, by the weight of the
bits (R91-R93, R98-R100). -/

namespace Sys2Proof.Machine

/-! ### Bits by their weight -/

theorem getLsbD_eq_decide {n : Nat} (v : BitVec n) (i : Nat) :
    v.getLsbD i = decide (v.toNat / 2 ^ i % 2 = 1) :=
  Nat.testBit_eq_decide_div_mod_eq

/-- The upper part of a concatenation weighs 2^n. -/
theorem toNat_append_eq_add {m n : Nat} (x : BitVec m) (y : BitVec n) :
    (x ++ y).toNat = 2 ^ n * x.toNat + y.toNat := by
  rw [BitVec.toNat_append, ← Nat.shiftLeft_add_eq_or_of_lt y.isLt, Nat.shiftLeft_eq, Nat.mul_comm]

/-! ### Reads (R91) -/

theorem ctrlWord_toNat (ie : Bool) : (ctrlWord ie).toNat = ie.toNat := by
  rw [ctrlWord, BitVec.toNat_setWidth_of_le (by decide), BitVec.toNat_ofBool]

/-- STATUS by the weight of its fields (R26). -/
theorem statusWord_toNat (st : Status) :
    (statusWord st).toNat =
      st.busy.toNat + 2 * st.done.toNat + 4 * st.err.toNat + 8 * st.ovr.toNat + 16 * st.prime.toNat +
        32 * st.noinv.toNat + 256 * (errCodeField st.errcode).toNat := by
  simp only [statusWord, toNat_append_eq_add, BitVec.toNat_ofBool, BitVec.toNat_ofNat]
  omega

/-- Settles O11: a read returns `portRead`, whose STATUS and CTRL are the words above. -/
theorem registerReadReturnsTheCurrentValue : Obligations.RegisterReadReturnsTheCurrentValue := by
  intro reg data s
  refine ⟨portRead reg s, exec_regrd reg data s, ?_, ?_, ?_, ?_, ?_, ?_, ?_, ?_⟩ <;> rintro rfl
  · rfl
  · exact ctrlWord_toNat s.ctrlIe
  · rw [portRead, statusWord_toNat]
    cases s.status.errcode <;> rfl
  all_goals rfl

/-! ### Writes (R92, R93, R98-R100) -/

/-- Settles O13: the operand cases of `portWrite`. -/
theorem operandWriteStoresAndNothingElse : Obligations.OperandWriteStoresAndNothingElse := fun v s =>
  ⟨exec_regwr .opa v s, exec_regwr .opb v s, exec_regwr .opm v s⟩

/-- Settles O14: the two read-only cases of `portWrite`. -/
theorem writesToIdAndResultAreIgnored : Obligations.WritesToIdAndResultAreIgnored := fun v s =>
  ⟨exec_regwr .id v s, exec_regwr .result v s⟩

/-- A write of CTRL with bit 1 clear (R99). -/
theorem ctrlWrite_of_not_reset {v : Word} (h : v.getLsbD 1 = false) (s : State) :
    ctrlWrite v s = { s with ctrlIe := v.getLsbD 0 } := by
  rw [ctrlWrite, h, if_neg Bool.false_ne_true]

/-- Settles O16: bit 1 clear is no soft reset, and IE is bit 0 by its weight. -/
theorem controlWriteSetsInterruptEnable : Obligations.ControlWriteSetsInterruptEnable := by
  intro v s hv
  have hreset : v.getLsbD 1 = false := (getLsbD_eq_decide v 1).trans (decide_eq_false (by omega))
  have hie : v.getLsbD 0 = (v.toNat % 2 == 1) := by rw [Bool.eq_iff_iff, toNat_odd_iff, beq_iff_eq]
  rw [exec_regwr, portWrite, ctrlWrite_of_not_reset hreset, hie]

/-- What a write leaves of a write-one-to-clear flag, by the bit of weight `2 ^ i` (R98). -/
theorem writeOneToClear_cases (v : Word) (i : Nat) (old : Bool) :
    (v.toNat / 2 ^ i % 2 = 1 → (old && !v.getLsbD i) = false) ∧
      (v.toNat / 2 ^ i % 2 = 0 → (old && !v.getLsbD i) = old) := by
  rw [getLsbD_eq_decide]
  constructor <;> intro h <;> simp [h]

/-- Settles O15: each flag of `flagsCleared` by the bit that clears it. -/
theorem statusWriteClearsDoneErrOvrOnly : Obligations.StatusWriteClearsDoneErrOvrOnly := by
  intro v s
  obtain ⟨hdone, hdone'⟩ := writeOneToClear_cases v 1 s.status.done
  obtain ⟨herr, herr'⟩ := writeOneToClear_cases v 2 s.status.err
  obtain ⟨hovr, hovr'⟩ := writeOneToClear_cases v 3 s.status.ovr
  refine ⟨statusWrite v s, exec_regwr .status v s, rfl, rfl, hdone, hdone', fun h => ⟨herr h, ?_⟩,
    fun h => ⟨herr' h, ?_⟩, hovr, hovr'⟩
  all_goals
    rw [statusWrite_status, flagsCleared_errcode, getLsbD_eq_decide]
    simp [h]

end Sys2Proof.Machine
end

section
/-! PROOFS. Acceptance (R94, R95): what it latches, and the start of each reference sequence (R130, R132, R141,
R151). -/

namespace Sys2Proof.Machine

/-- An instruction whose command is accepted (R94, R95). -/
theorem exec_accepted {i : Instr} {v : Word} {c : Command} {s : State} (hi : commandOf i = some v)
    (hd : decodeCommand v = .ok c) (hb : s.status.busy = false) (hm : c = .mrtest ∨ s.opm ≠ 0#64) :
    exec i s = .next (accept c { s with lastCmd := v }) := by
  rw [exec_of_commandOf hi, commandWrite_accepted hb hd hm]

/-- An acceptance starts the engine on the operands as they stand (R95). -/
theorem holdsCommand_accept (c : Command) (s : State) :
    holdsCommand c s.opa s.opb s.opm (accept c s) :=
  ⟨rfl, initialise_same c (latchOperands c s)⟩

/-- Settles O25: the acceptance is `accept`, which writes only the flags, the sequencer and W.*. -/
theorem acceptanceLatchesOperandsAndStarts : Obligations.AcceptanceLatchesOperandsAndStarts :=
  fun _ v c s hi hd hb hm => ⟨_, exec_accepted hi hd hb hm, holdsCommand_accept c { s with lastCmd := v }, rfl⟩

/-! ### The start of a sequence -/

theorem toWord_mod_toNat (a m : Word) : (toWord (a.toNat % m.toNat)).toNat = a.toNat % m.toNat :=
  toWord_toNat ((Nat.mod_le _ _).trans_lt a.isLt)

theorem toWord_self (w : Word) : toWord w.toNat = w := BitVec.eq_of_toNat_eq (toWord_toNat w.isLt)

theorem mrGuard_eq_true {n : Nat} (h : n < 2 ∨ (4 ≤ n ∧ n % 2 = 0)) : mrGuard n = true := by
  rw [← Bool.not_eq_false, mrGuard_eq_false_iff]
  omega

/-- Settles O26: the first line of each command's sequence on the latched operands. -/
theorem acceptanceInitialisesWorkingRegisters : Obligations.AcceptanceInitialisesWorkingRegisters := by
  intro c s t hb hm hexec
  rw [exec_accepted (commandOf_ofCommand c) (decodeCommand_commandWord c) hb hm] at hexec
  cases hexec
  have hone : (toWord (1 % s.opm.toNat)).toNat = 1 % s.opm.toNat := toWord_mod_toNat 1#64 s.opm
  have hmod := toWord_mod_toNat s.opa s.opm
  refine ⟨?_, ?_, ?_, ?_, ?_⟩ <;> rintro rfl
  · exact ⟨rfl, rfl, hmod, toWord_self s.opb⟩
  · exact ⟨rfl, hone, hmod, toWord_self s.opb⟩
  · intro hn
    have hguard := (mrGuard_eq_false_iff _).2 hn
    have hq : (s.opa - 1#64).toNat = s.opa.toNat - 1 := (eq_sub_one_iff (by omega)).1 rfl
    simp [initialise, latchOperands, hguard, hq]
  · intro hn
    simp [initialise, latchOperands, mrGuard_eq_true hn]
  · exact ⟨rfl, toWord_self s.opm, rfl, hmod, hone⟩

end Sys2Proof.Machine
end

section
/-! PROOFS. No fault and no end but IDLE from the invariant (R97, R104; log 2, log 11). -/

namespace Sys2Proof.Machine

/-- From the invariant no event faults: an access is a transaction or refused, and every other event leads
on. -/
theorem perform_ne_fault {ev : Event} {s : State} (h : engineInv s = true) (r : Fault) :
    perform ev s ≠ .fault r := by
  have hnext (hbus : ∀ access, ev = .bus access → ∃ i, busTransaction access = .ok i) :
      perform ev s ≠ .fault r := by
    obtain ⟨t, ht⟩ := perform_answers_next h hbus
    rw [ht]; nofun
  cases ev with
  | bus access =>
    cases hb : busTransaction access with
    | ok i => exact hnext fun _ hev => ⟨i, by cases hev; exact hb⟩
    | error refusal => rw [perform_bus_of_error hb]; nofun
  | _ => exact hnext nofun

/-- Settles O39: a step performs an event, and the invariant holds where it does. -/
theorem noFaultFromTheInvariant : Obligations.NoFaultFromTheInvariant := by
  rintro s r ⟨-, heng⟩
  obtain ⟨ev, rest, hstep⟩ := step_eq_perform s
  rw [hstep]
  exact perform_ne_fault (s := beginEvent rest s) heng r

/-- With no event left a step is a completion (R97; log 2). -/
theorem step_of_no_events {s : State} (h : s.events = []) : step s = perform .complete (beginEvent [] s) := by
  simp only [step, h, perform]

/-- A completion leaves the block idle (R96). -/
theorem idle_of_perform_complete {s t : State} (h : perform .complete s = .next t) : running t = false := by
  cases hr : running s with
  | true =>
    rw [perform_complete_of_running hr] at h
    obtain ⟨c, -, rfl⟩ := complete_eq_next.1 h
    rw [completeCommand_eq]; rfl
  | false =>
    simp only [perform, completeIfRunning, running_eq_false.1 hr, Host.Outcome.next.injEq] at h
    rw [← h, hr]

/-- With no event left, one step ends the run (R104). -/
theorem run_one_of_no_events {s : State} (h : engineInv s = true) (hev : s.events = []) :
    ∃ t, Sys2Proof.core.run 1 s = .next t ∧ runOver t = true := by
  obtain ⟨t, ht⟩ := perform_answers_next (ev := .complete) (s := beginEvent [] s) h nofun
  have hevents : t.events = [] := (effect_of_perform ht).events
  refine ⟨t, run_succ ((step_of_no_events hev).trans ht) 0, ?_⟩
  rw [runOver, hevents, idle_of_perform_complete ht]; rfl

/-- A run over any list of events that all lead on ends idle one step after the last of them. -/
theorem run_ends_idle (events : List Event) (s : State) (h : Inv s) (hs : s.events = events)
    (hbus : ∀ access, .bus access ∈ events → ∃ i, busTransaction access = .ok i) :
    ∃ t, Sys2Proof.core.run (events.length + 1) s = .next t ∧ runOver t = true := by
  induction events generalizing s with
  | nil => exact run_one_of_no_events h.2 hs
  | cons ev rest ih =>
    obtain ⟨t, ht⟩ := perform_answers_next (s := beginEvent rest s) h.2
      fun access hev => hbus access (hev ▸ List.mem_cons_self)
    obtain ⟨u, hrun, hover⟩ := ih t (perform_inv (inv_beginEvent h) ht) (effect_of_perform ht).events
      fun access hmem => hbus access (List.mem_cons_of_mem _ hmem)
    exact ⟨u, (run_succ ((step_of_events hs).trans ht) _).trans hrun, hover⟩

/-- Settles O43, by induction on the events. -/
theorem everyRunEndsIdle : Obligations.EveryRunEndsIdle := fun s hinv hbus =>
  run_ends_idle s.events s hinv rfl hbus

end Sys2Proof.Machine
end

section
/-! PROOFS. A command from its write to its completion (R94 to R97), and the results of MADD and MSUB (R120 to
R123). -/

namespace Sys2Proof.Machine

/-! ### From the write to the completion, for every command -/

/-- The completion of the command the engine holds delivers the exact result on its latched operands (R96). -/
theorem perform_complete_of_holdsCommand {c : Command} {a b m : Word} {s : State}
    (h : holdsCommand c a b m s) (hm : c = .mrtest ∨ m ≠ 0#64) :
    perform .complete s = .next (completeCommand c s) ∧
      (completeCommand c s).result.toNat = exactResult c a.toNat b.toNat m.toNat := by
  obtain ⟨hrun, hop, rfl, rfl, rfl⟩ := h
  have hc : runnable s.w = .ok c := runnable_eq_ok.2 ⟨hop, hm⟩
  constructor
  · rw [perform_complete_of_running hrun]
    exact complete_eq_next.2 ⟨c, hc, rfl⟩
  · rw [completeCommand_eq]
    exact commandResult_toNat hc

/-- A command written while BUSY = 0, with a modulus where it needs one, is accepted and leaves RESULT alone,
and completes with its exact result from every state that still holds it (R95, R97). -/
theorem exec_ofCommand_completes {c : Command} {s : State} (hb : s.status.busy = false)
    (hm : c = .mrtest ∨ s.opm ≠ 0#64) :
    ∃ t, exec (Instr.ofCommand c) s = .next t ∧ holdsCommand c s.opa s.opb s.opm t ∧ t.result = s.result ∧
      ∀ u, holdsCommand c s.opa s.opb s.opm u →
        perform .complete u = .next (completeCommand c u) ∧
          (completeCommand c u).result.toNat = exactResult c s.opa.toNat s.opb.toNat s.opm.toNat :=
  ⟨_, exec_accepted (commandOf_ofCommand c) (decodeCommand_commandWord c) hb hm,
    holdsCommand_accept c { s with lastCmd := commandWord c }, rfl,
    fun _ hu => perform_complete_of_holdsCommand hu hm⟩

/-! ### MADD and MSUB -/

/-- Settles O27: the completion delivers `mod_add`, which is the sum's residue. -/
theorem maddDeliversTheModularSum : Obligations.MaddDeliversTheModularSum := by
  intro s hb hm
  obtain ⟨t, hexec, hholds, hres, hdone⟩ := exec_ofCommand_completes (c := .madd) hb (.inr hm)
  refine ⟨t, hexec, hholds, hres, fun u hu => ?_⟩
  obtain ⟨hcomplete, hexact⟩ := hdone u hu
  exact ⟨_, hcomplete, hexact.trans (modAdd_eq _ _ (toNat_pos_of_ne_zero hm)), rfl⟩

/-- Settles O28: the completion delivers `mod_sub`, which is the integer difference's residue. -/
theorem msubDeliversTheModularDifference : Obligations.MsubDeliversTheModularDifference := by
  intro s hb hm
  obtain ⟨t, hexec, hholds, hres, hdone⟩ := exec_ofCommand_completes (c := .msub) hb (.inr hm)
  refine ⟨t, hexec, hholds, hres, fun u hu => ?_⟩
  obtain ⟨hcomplete, hexact⟩ := hdone u hu
  refine ⟨_, hcomplete, ?_, rfl⟩
  rw [hexact]
  exact modSub_eq _ _ (toNat_pos_of_ne_zero hm)

end Sys2Proof.Machine
end

section
/-! PROOFS. The results of MMUL and MPOW (R130 to R133). -/

namespace Sys2Proof.Machine

/-- A modulus command without a flag of its own (R96: all but MRTEST and MINV), written while BUSY = 0, delivers
the number `n` its datapath function computes, and its completion writes only RESULT, BUSY, DONE and the
sequencer. -/
theorem exec_ofCommand_delivers {c : Command} {s : State} {n : Nat} (hmr : c ≠ .mrtest) (hinv : c ≠ .minv)
    (hb : s.status.busy = false) (hm : s.opm ≠ 0#64)
    (hn : exactResult c s.opa.toNat s.opb.toNat s.opm.toNat = n) :
    ∃ t, exec (Instr.ofCommand c) s = .next t ∧ holdsCommand c s.opa s.opb s.opm t ∧ t.result = s.result ∧
      ∀ u, holdsCommand c s.opa s.opb s.opm u →
        ∃ v, perform .complete u = .next v ∧ v.result.toNat = n ∧
          v = { u with
            result := v.result, seq := .idle, status := { u.status with busy := false, done := true } } := by
  obtain ⟨t, hexec, hholds, hres, hdone⟩ := exec_ofCommand_completes (c := c) hb (.inr hm)
  refine ⟨t, hexec, hholds, hres, fun u hu => ?_⟩
  obtain ⟨hcomplete, hexact⟩ := hdone u hu
  refine ⟨_, hcomplete, hexact.trans hn, ?_⟩
  simp only [completeCommand_eq, primeAfter, noinvAfter, if_neg hmr, if_neg hinv]

/-- Settles O29: the completion delivers `mod_mul`, which is the residue of the full product. -/
theorem mmulDeliversTheModularProduct : Obligations.MmulDeliversTheModularProduct := fun s hb hm =>
  exec_ofCommand_delivers (c := .mmul) nofun nofun hb hm
    (modMul_eq s.opa.toNat (toNat_pos_of_ne_zero hm) s.opb.isLt)

/-- Settles O30: the completion delivers `mod_pow`, which is the residue of the power, and 1 mod m at b = 0. -/
theorem mpowDeliversTheModularPower : Obligations.MpowDeliversTheModularPower := fun s hb hm =>
  exec_ofCommand_delivers (c := .mpow) nofun nofun hb hm
    (modPow_eq s.opa.toNat (toNat_pos_of_ne_zero hm) s.opm.isLt.le s.opb.isLt)

end Sys2Proof.Machine
end

section
/-! PROOFS. The Miller-Rabin test (R140 to R142) in arithmetic: its loops decide strong probable primality, every
prime passes (R144), and MRTEST delivers the verdict (R143). -/

namespace Sys2Proof.Machine

/-! ### The halving loop (R141) -/

/-- The loop splits off the whole power of two, so it finds the decomposition n - 1 = q·2^k of any given one. -/
theorem halveLoop_mul_two_pow {q : Nat} (hq : q % 2 = 1) {j fuel : Nat} (hj : j ≤ fuel) (k : Nat) :
    halveLoop fuel (q * 2 ^ j) k = (q, k + j) := by
  induction fuel generalizing j k with
  | zero =>
    obtain rfl : j = 0 := by omega
    simp [halveLoop]
  | succ fuel ih =>
    cases j with
    | zero => simp [halveLoop, hq]
    | succ j =>
      have heven : q * 2 ^ (j + 1) = 2 * (q * 2 ^ j) := by ring
      rw [halveLoop, heven, if_pos (Nat.mul_mod_right 2 _), Nat.mul_div_cancel_left _ two_pos,
        ih (Nat.le_of_succ_le_succ hj), Nat.add_right_comm, Nat.add_assoc]

theorem exists_decomposition {n : Nat} (hn : 2 ≤ n) : ∃ q k, q % 2 = 1 ∧ n - 1 = q * 2 ^ k := by
  obtain ⟨k, q, hq, hqk⟩ := Nat.exists_eq_two_pow_mul_odd (n := n - 1) (by omega)
  exact ⟨q, k, Nat.odd_iff.1 hq, hqk.trans (Nat.mul_comm _ _)⟩

/-- For a 64-bit odd `n` the decomposition fits the registers and the fuel (log 12). -/
theorem decomposition_bounds {n q k : Nat} (hn : n < 2 ^ 64) (hodd : n % 2 = 1) (hq : q % 2 = 1)
    (hqk : n - 1 = q * 2 ^ k) : q < 2 ^ 64 ∧ 0 < k ∧ k ≤ 64 := by
  have hlt : q * 2 ^ k < 2 ^ 64 := by omega
  have hk : 2 ^ k < 2 ^ 64 := (Nat.le_mul_of_pos_left _ (by omega)).trans_lt hlt
  refine ⟨(Nat.le_mul_of_pos_right _ (Nat.two_pow_pos k)).trans_lt hlt, Nat.pos_of_ne_zero ?_,
    ((Nat.pow_lt_pow_iff_right Nat.one_lt_two).1 hk).le⟩
  rintro rfl
  omega

/-! ### One witness (R142) -/

/-- `n` is a strong probable prime to base `a`, for n - 1 = q·2^k. -/
def StrongProbablePrime (n q k a : Nat) : Prop :=
  a ^ q % n = 1 ∨ ∃ r < k, a ^ (q * 2 ^ r) % n = n - 1

/-- From x_r on, the squaring loop looks for n - 1 among x_r, ..., x_(k-1), where x_i = y^(2^i) mod n. -/
theorem squareLoop_eq_true_iff {n k y fuel r : Nat} (hn : 0 < n) (hn' : n ≤ 2 ^ 64) (hr : r < k)
    (hfuel : k ≤ r + fuel) :
    squareLoop n k fuel (y ^ 2 ^ r % n) r = true ↔ ∃ i, r ≤ i ∧ i < k ∧ y ^ 2 ^ i % n = n - 1 := by
  induction fuel generalizing r with
  | zero => omega
  | succ fuel ih =>
    have hlt : y ^ 2 ^ r % n < 2 ^ 64 := (Nat.mod_lt _ hn).trans_le hn'
    have hsquare : modMul (y ^ 2 ^ r % n) (y ^ 2 ^ r % n) n = y ^ 2 ^ (r + 1) % n := by
      rw [modMul_eq _ hn hlt, ← Nat.mul_mod, ← pow_add, ← Nat.two_mul, ← Nat.pow_succ']
    rw [squareLoop, hsquare]
    split_ifs with hx hlast
    · exact iff_of_true rfl ⟨r, le_rfl, hr, hx⟩
    · refine iff_of_false nofun fun ⟨i, hri, hik, hi⟩ => hx ?_
      obtain rfl : i = r := by omega
      exact hi
    · have hskip (i : Nat) (hi : y ^ 2 ^ i % n = n - 1) : r ≤ i ↔ r + 1 ≤ i := by
        have hne : i ≠ r := by rintro rfl; exact hx hi
        omega
      rw [ih (by omega) (by omega)]
      exact exists_congr fun i => and_congr_left fun ⟨_, hi⟩ => (hskip i hi).symm

theorem witnessPasses_eq_true_iff {n q k : Nat} (hn : n < 2 ^ 64) (hodd : n % 2 = 1) (hq : q % 2 = 1)
    (hqk : n - 1 = q * 2 ^ k) (a : Nat) : witnessPasses n q k a = true ↔ StrongProbablePrime n q k a := by
  obtain ⟨hq64, hk, hk64⟩ := decomposition_bounds hn hodd hq hqk
  have hpos : 0 < n := by omega
  rw [witnessPasses, StrongProbablePrime, modPow_eq a hpos hn.le hq64]
  split_ifs with h1
  · exact iff_of_true rfl (.inl h1)
  · have hloop := squareLoop_eq_true_iff (y := a ^ q) (r := 0) (fuel := 64) hpos hn.le hk (by omega)
    rw [pow_zero, pow_one] at hloop
    simp only [hloop, h1, false_or, Nat.zero_le, true_and, pow_mul]

/-! ### The loop over the witnesses (R142) -/

theorem witnessLoop_eq_true_iff {n : Nat} (q k : Nat) {as : List Nat} (hn : n ∉ as) :
    witnessLoop n q k as = true ↔ ∀ a ∈ as, witnessPasses n q k a = true := by
  induction as with
  | nil => simp [witnessLoop]
  | cons a as ih =>
    obtain ⟨hne, hmem⟩ := not_or.1 (mt List.mem_cons.2 hn)
    rw [witnessLoop, if_neg (Ne.symm hne), List.forall_mem_cons, ← ih hmem]
    split_ifs with h <;> simp [h]

/-- The loop cannot fail where every witness other than `n` passes. -/
theorem witnessLoop_eq_true_of_passes {n q k : Nat} {as : List Nat}
    (h : ∀ a ∈ as, a ≠ n → witnessPasses n q k a = true) : witnessLoop n q k as = true := by
  induction as with
  | nil => rfl
  | cons a as ih =>
    obtain ⟨ha, has⟩ := List.forall_mem_cons.1 h
    rw [witnessLoop]
    split_ifs with hn hpass
    · rfl
    · exact ih has
    · exact absurd (ha hn) hpass

theorem millerRabin_eq_witnessLoop {n q k : Nat} (hn : n < 2 ^ 64) (h3 : 3 ≤ n) (hodd : n % 2 = 1)
    (hq : q % 2 = 1) (hqk : n - 1 = q * 2 ^ k) : millerRabin n = witnessLoop n q k Config.witnesses := by
  have hguard : mrGuard n = false := (mrGuard_eq_false_iff n).2 (.inr ⟨h3, hodd⟩)
  obtain ⟨-, -, hk⟩ := decomposition_bounds hn hodd hq hqk
  rw [millerRabin, if_neg (Bool.eq_false_iff.1 hguard), hqk, halveLoop_mul_two_pow hq hk, Nat.zero_add]

/-! ### Primes pass (R144) -/

/-- Without zero divisors, what reaches 1 by `k` squarings is 1 already or passes through -1. -/
theorem eq_one_or_eq_neg_one_of_pow_two_pow {R : Type*} [Ring R] [NoZeroDivisors R] {y : R} {k : Nat}
    (h : y ^ 2 ^ k = 1) : y = 1 ∨ ∃ r < k, y ^ 2 ^ r = -1 := by
  induction k with
  | zero => exact .inl (by simpa using h)
  | succ k ih =>
    rw [pow_succ, pow_mul, sq_eq_one_iff] at h
    obtain h | h := h
    · exact (ih h).imp_right fun ⟨r, hr, hneg⟩ => ⟨r, hr.trans k.lt_succ_self, hneg⟩
    · exact .inr ⟨k, k.lt_succ_self, h⟩

/-- Fermat's little theorem makes a^(n-1) a 1 that is reached from a^q by `k` squarings. -/
theorem strongProbablePrime_of_prime {n q k a : Nat} (hn : n.Prime) (ha : ¬ n ∣ a) (hqk : n - 1 = q * 2 ^ k) :
    StrongProbablePrime n q k a := by
  have : Fact n.Prime := ⟨hn⟩
  have hfermat : ((a : ZMod n) ^ q) ^ 2 ^ k = 1 := by
    rw [← pow_mul, ← hqk]
    exact ZMod.pow_card_sub_one_eq_one (mt (ZMod.natCast_eq_zero_iff a n).1 ha)
  have hneg : ((n - 1 : Nat) : ZMod n) = -1 := by rw [Nat.cast_pred hn.pos, ZMod.natCast_self, zero_sub]
  refine (eq_one_or_eq_neg_one_of_pow_two_pow hfermat).imp (fun h => ?_) fun ⟨r, hr, h⟩ => ⟨r, hr, ?_⟩
  · have hmod := (ZMod.natCast_eq_natCast_iff' (a ^ q) 1 n).1 (by rw [Nat.cast_pow, Nat.cast_one, h])
    exact hmod.trans (Nat.mod_eq_of_lt hn.one_lt)
  · have hmod := (ZMod.natCast_eq_natCast_iff' (a ^ (q * 2 ^ r)) (n - 1) n).1
      (by rw [Nat.cast_pow, pow_mul, h, hneg])
    exact hmod.trans (Nat.mod_eq_of_lt (Nat.pred_lt hn.ne_zero))

theorem prime_of_mem_witnesses {a : Nat} (h : a ∈ Config.witnesses) : a.Prime := by
  have hall : ∀ a ∈ Config.witnesses, a.Prime := by norm_num [Config.witnesses]
  exact hall a h

/-- Settles O34: a witness other than the prime `n` is a prime that `n` does not divide, so `n` passes it. -/
theorem everyPrimePassesTheTest : Obligations.EveryPrimePassesTheTest := by
  intro n hn hprime
  obtain rfl | hodd := hprime.eq_two_or_odd
  · decide
  · have h3 : 3 ≤ n := by have := hprime.two_le; omega
    obtain ⟨q, k, hq, hqk⟩ := exists_decomposition hprime.two_le
    rw [millerRabin_eq_witnessLoop hn h3 hodd hq hqk]
    refine witnessLoop_eq_true_of_passes fun a ha hne => (witnessPasses_eq_true_iff hn hodd hq hqk a).2 ?_
    have hdvd : ¬ n ∣ a := fun h => hne ((Nat.prime_dvd_prime_iff_eq hprime (prime_of_mem_witnesses ha)).1 h).symm
    exact strongProbablePrime_of_prime hprime hdvd hqk

/-! ### The verdict (R142, R143) -/

/-- Off the witnesses, the test asks strong probable primality to each of them. -/
theorem millerRabin_eq_true_iff_of_not_mem {n q k : Nat} (hn : n < 2 ^ 64) (h3 : 3 ≤ n) (hodd : n % 2 = 1)
    (hmem : n ∉ Config.witnesses) (hq : q % 2 = 1) (hqk : n - 1 = q * 2 ^ k) :
    millerRabin n = true ↔ ∀ a ∈ Config.witnesses, StrongProbablePrime n q k a := by
  simp only [millerRabin_eq_witnessLoop hn h3 hodd hq hqk, witnessLoop_eq_true_iff q k hmem,
    witnessPasses_eq_true_iff hn hodd hq hqk]

/-- The verdict for every 64-bit `n`: a witness is prime and passes (R144), so the order in which the loop meets
it does not matter. -/
theorem millerRabin_eq_true_iff {n : Nat} (hn : n < 2 ^ 64) :
    millerRabin n = true ↔
      (n = 2 ∨ (3 ≤ n ∧ n % 2 = 1)) ∧
      (n ∈ Config.witnesses ∨
        ∀ q k, q % 2 = 1 → n - 1 = q * 2 ^ k → ∀ a ∈ Config.witnesses, StrongProbablePrime n q k a) := by
  rw [← mrGuard_eq_false_iff]
  cases hguard : mrGuard n with
  | true => simp [millerRabin, hguard]
  | false =>
    rw [eq_self, true_and]
    by_cases hmem : n ∈ Config.witnesses
    · exact iff_of_true (everyPrimePassesTheTest n hn (prime_of_mem_witnesses hmem)) (.inl hmem)
    · have hne : n ≠ 2 := by rintro rfl; exact hmem (by decide)
      obtain ⟨h3, hodd⟩ := ((mrGuard_eq_false_iff n).1 hguard).resolve_left hne
      have hverdict {q k : Nat} := millerRabin_eq_true_iff_of_not_mem (q := q) (k := k) hn h3 hodd hmem
      obtain ⟨q, k, hq, hqk⟩ := exists_decomposition (by omega : 2 ≤ n)
      rw [or_iff_right hmem]
      exact ⟨fun h _ _ hq hqk => (hverdict hq hqk).1 h, fun h => (hverdict hq hqk).2 (h q k hq hqk)⟩

/-- An MRTEST completion writes the verdict to RESULT and to PRIME. -/
theorem completeCommand_mrtest (s : State) :
    completeCommand .mrtest s =
      { s with
        result := if millerRabin s.w.a.toNat then 1#64 else 0#64
        seq := .idle
        status := { s.status with busy := false, done := true, prime := millerRabin s.w.a.toNat } } := by
  rw [completeCommand_eq, commandResult_mrtest]
  cases millerRabin s.w.a.toNat <;> rfl

/-- Settles O31: the completion's verdict on the latched OPA is the one of `millerRabin_eq_true_iff`. -/
theorem mrtestDeliversTheStrongProbablePrimeVerdict :
    Obligations.MrtestDeliversTheStrongProbablePrimeVerdict := by
  intro s hb
  obtain ⟨t, hexec, hholds, hres, hdone⟩ := exec_ofCommand_completes (c := .mrtest) hb (.inl rfl)
  refine ⟨t, hexec, hholds, hres, fun u hu => ?_⟩
  obtain ⟨hcomplete, -⟩ := hdone u hu
  obtain ⟨-, -, ha, -, -⟩ := hu
  rw [completeCommand_mrtest, ha] at hcomplete
  have hverdict := millerRabin_eq_true_iff s.opa.isLt
  cases hmr : millerRabin s.opa.toNat with
  | true =>
    rw [hmr] at hcomplete
    exact ⟨_, hcomplete, iff_of_true rfl (hverdict.1 hmr), fun h => absurd rfl h, rfl⟩
  | false =>
    rw [hmr] at hcomplete
    exact ⟨_, hcomplete, iff_of_false (by simp) (mt hverdict.2 (Bool.eq_false_iff.1 hmr)), fun _ => rfl, rfl⟩

end Sys2Proof.Machine
end

section
/-! PROOFS. Extended Euclid (R151) computes the modular inverse of R150, and MINV delivers it (R152). -/

namespace Sys2Proof.Machine

/-! ### The loop (R151) -/

theorem euclidIter_gcd (m : Nat) (s : Euclid) :
    Nat.gcd (euclidIter m s).d0 (euclidIter m s).d1 = Nat.gcd s.d0 s.d1 := by
  rw [euclidIter_d1, Nat.gcd_comm s.d0, Nat.gcd_rec s.d1, Nat.gcd_comm (s.d0 % s.d1)]
  rfl

/-- `x` is an inverse of `a` modulo `m` where the greatest common divisor `g` is 1, and 0 elsewhere. -/
structure InverseOrZero (a m g x : Nat) : Prop where
  modEq_one : g = 1 → x * a ≡ 1 [MOD m]
  eq_zero : g ≠ 1 → x = 0

/-- Where the loop ends, d1 is 0 or 1, and it is the greatest common divisor exactly when it is 1. -/
theorem EuclidInv.result_inverseOrZero {a m : Nat} {s : Euclid} (h : EuclidInv a m s) (h0 : 1 < s.d0)
    (h1 : s.d1 ≤ 1) : InverseOrZero a m (Nat.gcd s.d0 s.d1) (euclidResult s) := by
  have hcases : s.d1 = 0 ∨ s.d1 = 1 := by omega
  obtain hd | hd := hcases
  · have hg : Nat.gcd s.d0 s.d1 = s.d0 := by rw [hd, Nat.gcd_zero_right]
    exact ⟨fun h => by omega, fun _ => by simp [euclidResult, hd]⟩
  · have hg : Nat.gcd s.d0 s.d1 = 1 := by rw [hd, Nat.gcd_one_right]
    have hx := h.x1_modEq
    rw [hd] at hx
    refine ⟨fun _ => ?_, fun h => absurd hg h⟩
    rw [euclidResult, if_pos hd]
    exact Int.natCast_modEq_iff.1 (by exact_mod_cast hx)

theorem euclidLoop_inverseOrZero {a m fuel : Nat} {s : Euclid} (h : EuclidInv a m s) (hm : 0 < m)
    (hm' : m ≤ 2 ^ 64) (h0 : 1 < s.d0) (hf : s.d0 * s.d1 < 2 ^ fuel) :
    InverseOrZero a m (Nat.gcd s.d0 s.d1) (euclidLoop m fuel s) := by
  induction fuel generalizing s with
  | zero =>
    have h1 : s.d1 ≤ 1 := by nlinarith
    exact h.result_inverseOrZero h0 h1
  | succ fuel ih =>
    rw [euclidLoop]
    split
    next h1 =>
      have hpos : 0 < s.d1 := by omega
      rw [← euclidIter_gcd m]
      exact ih (h.iter hm hm' hpos) h1 (euclidIter_product h.d1_lt hpos hf)
    next h1 => exact h.result_inverseOrZero h0 (by omega)

/-! ### The inverse (R150) -/

/-- D0·D1 starts below 2^128, so the 128 iterations are enough. -/
theorem modInv_inverseOrZero {m : Nat} (a : Nat) (hm : 2 ≤ m) (hm' : m < 2 ^ 64) :
    InverseOrZero a m (Nat.gcd (a % m) m) (modInv a m) := by
  have hpos : 0 < m := by omega
  have hfuel : m * (a % m) < 2 ^ 128 := by
    have := Nat.mod_lt a hpos
    nlinarith
  rw [Nat.gcd_comm]
  exact euclidLoop_inverseOrZero (euclidInv_start hpos) hpos hm'.le hm hfuel

theorem modInv_eq_zero {a m : Nat} (hm : 1 ≤ m) (hm' : m < 2 ^ 64)
    (h : ¬ (2 ≤ m ∧ Nat.gcd (a % m) m = 1)) : modInv a m = 0 := by
  by_cases h2 : 2 ≤ m
  · exact (modInv_inverseOrZero a h2 hm').eq_zero fun hg => h ⟨h2, hg⟩
  · have := modInv_lt a hm hm'.le
    omega

/-- R150's description of the inverse. -/
def IsInverse (a m x : Nat) : Prop := 1 ≤ x ∧ x ≤ m - 1 ∧ (a * x) % m = 1

theorem isInverse_iff {a m x : Nat} (hm : 2 ≤ m) : IsInverse a m x ↔ x < m ∧ x * a ≡ 1 [MOD m] := by
  have hone : 1 % m = 1 := Nat.mod_eq_of_lt hm
  rw [IsInverse, Nat.ModEq, hone, mul_comm x a]
  constructor
  · rintro ⟨-, hle, hx⟩
    exact ⟨by omega, hx⟩
  · rintro ⟨hlt, hx⟩
    have hne : x ≠ 0 := by rintro rfl; simp at hx
    exact ⟨by omega, by omega, hx⟩

/-- An inverse is coprime to the modulus, as `a` is, so two of them agree modulo `m` (R150). -/
theorem IsInverse.unique {a m x y : Nat} (hm : 2 ≤ m) (hx : IsInverse a m x) (hy : IsInverse a m y) : x = y := by
  obtain ⟨hxlt, hx⟩ := (isInverse_iff hm).1 hx
  obtain ⟨hylt, hy⟩ := (isInverse_iff hm).1 hy
  have hcop : Nat.gcd m a = 1 := by
    rw [Nat.gcd_comm]; exact Nat.coprime_of_mul_modEq_one x (mul_comm x a ▸ hx)
  exact (Nat.ModEq.cancel_right_of_coprime hcop (hx.trans hy.symm)).eq_of_lt_of_lt hxlt hylt

theorem isInverse_modInv {a m : Nat} (hm : 2 ≤ m) (hm' : m < 2 ^ 64) (hg : Nat.gcd (a % m) m = 1) :
    IsInverse a m (modInv a m) :=
  (isInverse_iff hm).2 ⟨modInv_lt a (by omega) hm'.le, (modInv_inverseOrZero a hm hm').modEq_one hg⟩

/-- Settles O33: the loop's answer is an inverse, and there is only one. -/
theorem inverseIsTheUniqueResidueOrZero : Obligations.InverseIsTheUniqueResidueOrZero := by
  intro a m _ hm hm'
  refine ⟨fun ⟨h2, hg⟩ x => ?_, modInv_eq_zero hm hm'⟩
  have hinv := isInverse_modInv h2 hm' hg
  constructor
  · rintro rfl
    exact hinv
  · exact fun hx => IsInverse.unique h2 hx hinv

/-! ### MINV (R152) -/

/-- NOINV after an MINV completion, by the number in RESULT (R35). -/
theorem completeCommand_minv_noinv (s : State) :
    (completeCommand .minv s).status.noinv = decide ((completeCommand .minv s).result.toNat = 0) := by
  rw [completeCommand_eq, Bool.eq_iff_iff]
  simp [noinvAfter, BitVec.toNat_eq]

/-- Settles O32: the completion delivers `modInv`, which is an inverse from 1 up, or 0 where there is none. -/
theorem minvDeliversTheInverseOrItsAbsence : Obligations.MinvDeliversTheInverseOrItsAbsence := by
  intro s hb hm
  obtain ⟨t, hexec, hholds, hres, hdone⟩ := exec_ofCommand_completes (c := .minv) hb (.inr hm)
  refine ⟨t, hexec, hholds, hres, fun u hu => ?_⟩
  obtain ⟨hcomplete, hexact⟩ := hdone u hu
  rw [exactResult] at hexact
  have hnoinv := completeCommand_minv_noinv u
  have hgcd : Nat.gcd (s.opa.toNat % s.opm.toNat) s.opm.toNat = Nat.gcd s.opa.toNat s.opm.toNat := by
    rw [← Nat.gcd_rec, Nat.gcd_comm]
  refine ⟨_, hcomplete, fun h2 hg => ?_, fun hno => ?_, rfl⟩
  · obtain ⟨hpos, hle, hmul⟩ := isInverse_modInv h2 s.opm.isLt (hgcd.trans hg)
    rw [← hexact] at hpos hle hmul
    exact ⟨hpos, by omega, hmul, hnoinv.trans (decide_eq_false (by omega))⟩
  · rw [modInv_eq_zero (toNat_pos_of_ne_zero hm) s.opm.isLt (hgcd ▸ hno)] at hexact
    exact ⟨BitVec.eq_of_toNat_eq hexact, hnoinv.trans (decide_eq_true hexact)⟩

end Sys2Proof.Machine
end

section
/-! PROOFS. The exceptions (R160 to R171): what a dropped, an illegal and a modulus-zero command write leave, how
the host clears the flags, and what moves IE. -/

namespace Sys2Proof.Machine

/-! ### Command writes that start nothing (R162 to R164) -/

/-- Settles O21: every spelling of a command write is `commandWrite`, which only overruns while BUSY. -/
theorem busyCommandWriteSetsOverrunOnly : Obligations.BusyCommandWriteSetsOverrunOnly := by
  intro i v s hi hb
  rw [exec_of_commandOf hi, commandWrite_busy hb]
  rfl

/-- Settles O23: a word with a bit of RSV set is at least 16, so the words in question are 0 and those from 7 up,
which are the ones `decodeCommand` refuses. -/
theorem illegalCommandWordRaisesIllegalCmd : Obligations.IllegalCommandWordRaisesIllegalCmd := by
  intro v s hb hv
  obtain ⟨e, hd⟩ := (decodeCommand_error_iff v).2 (by omega)
  rw [exec_of_commandOf rfl, commandWrite_illegal hb hd]
  rfl

/-- The words 1, 2, 3, 4 and 6 are those of the commands that need a modulus (R72, R102). -/
theorem decodeCommand_of_modulusWord {v : Word} (h : v = 1#64 ∨ v = 2#64 ∨ v = 3#64 ∨ v = 4#64 ∨ v = 6#64) :
    ∃ c, decodeCommand v = .ok c ∧ needsModulus c = true := by
  obtain rfl | rfl | rfl | rfl | rfl := h
  · exact ⟨.madd, rfl, rfl⟩
  · exact ⟨.msub, rfl, rfl⟩
  · exact ⟨.mmul, rfl, rfl⟩
  · exact ⟨.mpow, rfl, rfl⟩
  · exact ⟨.minv, rfl, rfl⟩

/-- Settles O24: the modulus commands end in `raiseError .modZero`, and MRTEST, which needs none, in `accept`. -/
theorem modulusZeroRaisesModZero : Obligations.ModulusZeroRaisesModZero := by
  intro i v s hi hb hm
  refine ⟨fun hv => ?_, fun hv => ?_⟩
  · obtain ⟨c, hd, hc⟩ := decodeCommand_of_modulusWord hv
    rw [exec_of_commandOf hi, commandWrite_modZero hb hd hc hm]
    rfl
  · have hd : decodeCommand v = .ok .mrtest := decodeCommand_eq_ok_iff.2 hv
    exact ⟨_, exec_accepted hi hd hb (.inl rfl), rfl, rfl⟩

/-! ### Clearing the flags, and IE (R171) -/

/-- Settles O58: bits 1, 2 and 3 of 0xE are set, so `flagsCleared` leaves none of the three flags, and irq needs
DONE or OVR. -/
theorem clearingStatusDropsTheInterrupt : Obligations.ClearingStatusDropsTheInterrupt := by
  intro s
  have hdone : (statusWrite 0xE#64 s).status.done = false := Bool.and_false _
  have herr : (statusWrite 0xE#64 s).status.err = false := Bool.and_false _
  have hovr : (statusWrite 0xE#64 s).status.ovr = false := Bool.and_false _
  refine ⟨statusWrite 0xE#64 s, exec_regwr .status _ s, hdone, herr, hovr, ?_, statusWrite_ctrlIe _ s⟩
  rw [irq, hdone, hovr, Bool.or_false, Bool.and_false]

/-- Settles O56: of the effects only a write of CTRL and a reset touch IE; a raised error and a completion leave it. -/
theorem interruptEnableChangesOnlyByControlWriteOrReset :
    Obligations.InterruptEnableChangesOnlyByControlWriteOrReset := by
  intro ev s t h hne
  cases effect_of_perform h with
  | control hi hr => exact .inl ⟨_, hi, rfl⟩
  | reset hr => exact .inr hr
  | completed hq hc => rw [completeCommand_eq] at hne; exact absurd rfl hne
  | _ => exact absurd rfl hne

end Sys2Proof.Machine
end

section
/-! PROOFS. What the next transaction finds (R194), and that no transaction but a soft reset reaches a running
command (R199). -/

namespace Sys2Proof.Machine

/-! ### An operand write and the next read (R92, R194) -/

/-- Taking the next event off the list changes no register. -/
@[simp] theorem portRead_beginEvent (reg : PortReg) (rest : List Event) (s : State) :
    portRead reg (beginEvent rest s) = portRead reg s := by
  cases reg <;> rfl

/-- An operand register holds what was last written to it (R93). -/
theorem portRead_portWrite_operand {reg : PortReg} (h : reg = .opa ∨ reg = .opb ∨ reg = .opm) (v : Word)
    (s : State) : portRead reg (portWrite reg v s) = v := by
  obtain rfl | rfl | rfl := h <;> rfl

/-- The step over a transaction word performs the transaction and leaves the other events to come. -/
theorem step_xact_of_decodeXact {x : XactWord} {i : Instr} {rest : List Event} {s : State}
    (hev : s.events = .xact x :: rest) (hx : decodeXact x = .ok i) :
    ∃ t, step s = .next t ∧ exec i (beginEvent rest s) = .next t ∧ t.events = rest := by
  have hi : eventInstr (.xact x) = some i := congrArg some (transactionOf_of_decodeXact hx)
  obtain ⟨t, ht⟩ := exec_answers_next i (beginEvent rest s)
  exact ⟨t, ((stepRunsTheDecodedInstruction s rest i).1 x hev hx).trans ht, ht, (effect_of_exec hi ht).events⟩

/-- Settles O17: the write's step leaves the read first in line, and the read's step shows the register as the
write left it. -/
theorem operandWriteIsSeenByTheNextRead : Obligations.OperandWriteIsSeenByTheNextRead := by
  intro reg v wr rd rest s hreg hwr hrd hev
  obtain ⟨t, hstep, hexec, hevents⟩ := step_xact_of_decodeXact hev hwr
  obtain ⟨u, hstep', hexec', -⟩ := step_xact_of_decodeXact hevents hrd
  have hrun : Sys2Proof.core.run 2 s = .next u := (run_succ hstep 1).trans (run_succ hstep' 0)
  cases hexec
  cases hexec'
  refine ⟨_, hrun, congrArg some ?_⟩
  rw [portRead_beginEvent, portRead_portWrite_operand hreg]

/-! ### Transactions while a command runs (R93, R164, R199) -/

/-- Settles O59: while BUSY a command write only overruns, and no other instruction but a soft reset writes the
engine, RESULT, BUSY, PRIME or NOINV. -/
theorem runningCommandIsUntouchedByTransactions : Obligations.RunningCommandIsUntouchedByTransactions := by
  intro i s hbusy hnoreset
  obtain ⟨v, -, he⟩ | ⟨-, ⟨hreset, -⟩ | ⟨-, hother⟩⟩ := exec_cases i s
  · rw [commandWrite_busy hbusy] at he
    exact ⟨_, he, rfl, rfl, rfl, hbusy, rfl, rfl⟩
  · rw [hnoreset] at hreset
    cases hreset
  · obtain ⟨v, -, -, he⟩ | ⟨v, -, he⟩ | ⟨v, -, he⟩ | ⟨v, -, he⟩ | ⟨v, -, he⟩ | ⟨v, -, he⟩ | ⟨reg, v, -, he⟩ :=
      hother <;>
      exact ⟨_, he, rfl, rfl, rfl, hbusy, rfl, rfl⟩

end Sys2Proof.Machine
end
